-- ==== Sys2Proof/Word.lean ====
section
/-! DEFINITION. The word types of the block: a 32-bit value (R6, R24), its bytes and half-words (R48),
the 34-bit fault address port (R64) and texts (R135). -/

namespace Sys2Proof

/-- A RegisterValue: one 32-bit vector, read as unsigned (`toNat`) or as signed (`toInt`) (R12, R24). -/
abbrev Word := BitVec 32

/-- A half-word or short: 16 bits (R13, R48). -/
abbrev Half := BitVec 16

/-- A byte: 8 bits (R48). -/
abbrev Byte := BitVec 8

/-- The response port FA: wide enough for the sum of three addresses (R64, R106). -/
abbrev FaultAddress := BitVec 34

/-- A text: a finite sequence of characters, compared exactly (R135).
DESIGN CHOICE (log 8): a character is one of Lean's `Char`. -/
abbrev Text := List Char

end Sys2Proof
end

