-- ==== Sys2Proof/Syntax.lean ====
section
/-! DEFINITION. The commands: the 26 operations of R66 with the operands their command word holds (R61, R62),
the raw fields of a command word (R61), and the assembler's pseudo-operations (R71). -/

namespace Sys2Proof

/-- The two register files: data and address (R22, R23). -/
inductive RegFile where
  | D
  | A
deriving DecidableEq, Repr

/-- A register operand: a file and an index 0..7 (R21, R65). -/
structure Reg where
  file : RegFile
  index : Fin 8
deriving DecidableEq, Repr

/-- HexFlag, the four text styles (R136). -/
inductive HexFlag where
  | none
  | hash
  | zeroX
  | dollar
deriving DecidableEq, Repr

/-- One constructor per row of the opcode table (R66). The numeric and text operands are not in the command
word: they arrive on the ports P0, P1, P2 and T (R63, R65). -/
inductive Instr where
  | rdreg (r : Reg)
  | wrreg (r : Reg)
  | rdflg
  | wrflg
  | ldb
  | stb
  | ldh
  | sth
  | ldw
  | stw
  | ldbx
  | tosigned
  | tounsigned
  | bytes
  | shorts
  | iszero
  | iseven
  | signbit
  | onesc
  | twosc
  | parity
  | hexstr (h : HexFlag)
  | parse
  | settxt (r : Reg)
  | name (r : Reg)
  | valstr (r : Reg)
deriving DecidableEq, Repr

/-- The mnemonics of R66: an operation without its operands. -/
inductive Mnemonic where
  | RDREG | WRREG | RDFLG | WRFLG
  | LDB | STB | LDH | STH | LDW | STW | LDBX
  | TOSIGNED | TOUNSIGNED | BYTES | SHORTS | ISZERO | ISEVEN | SIGNBIT | ONESC | TWOSC | PARITY
  | HEXSTR | PARSE | SETTXT | NAME | VALSTR
deriving DecidableEq, Repr

/-- The three formats of R62: no field, a register, a HexFlag. -/
inductive Format where
  | CN
  | CR
  | CH
deriving DecidableEq, Repr

/-- The operand ports of R63. -/
inductive Port where
  | P0
  | P1
  | P2
  | T
deriving DecidableEq, Repr

/-- The result kinds of R64. -/
inductive ResultKind where
  | W32
  | I32
  | BOOL
  | B4
  | H2
  | TXT
  | none
deriving DecidableEq, Repr

/-- The raw fields of a command word, from the top bit down: OP, F, R, H, Z (R61). -/
structure Fields where
  op : BitVec 8
  f : BitVec 1
  r : BitVec 3
  h : BitVec 2
  z : BitVec 18
deriving DecidableEq, Repr

/-- Why a command word is illegal (R67): no row has its OP, or a field its format does not use is not zero.
The response does not tell the two apart (R164): both are status IllegalCommand. -/
inductive DecodeError where
  | reservedOpcode
  | unusedFieldNotZero
deriving DecidableEq, Repr

/-- What the decoder answers: the command of a legal word, or why the word is illegal (R67). -/
inductive Decoded where
  | ok (i : Instr)
  | error (e : DecodeError)
deriving DecidableEq, Repr

/-- The aliases and pseudo-operations of the assembler (R71). -/
inductive Pseudo where
  | ltz (v : Word)
  | clr (r : Reg)
  | clrflg
  | mov (rd rs : Reg)
  | negreg (r : Reg)
deriving DecidableEq, Repr

end Sys2Proof
end

