-- ==== Sys2Proof/Config.lean ====
section
/-! DEFINITION. The three construction parameters of R7. The spec leaves each of them open, so the machine that
`State.reset` constructs takes them from constants with no body: nothing can be proved of their values. -/

namespace Sys2Proof

/-- What PARSE and SETTXT do with a number of 2^32 or more (R7, R145). -/
inductive ParseOverflow where
  | fail
  | wrap
deriving DecidableEq, Repr, Inhabited

/-- MEM_SIZE: the number of bytes of memory, `0 <= MEM_SIZE <= 2^32` (R7). -/
abbrev MemSize := Fin (2 ^ 32 + 1)

namespace Config

/-- MEM_SIZE of the constructed block (R7): open, so it has no body (log 2). -/
opaque memSize : MemSize

/-- REG_INIT: the value of each register after construction (R7, R32, D8): open, so it has no body (log 3). -/
opaque regInit : RegFile → Fin 8 → Word

/-- PARSE_OVERFLOW of the constructed block (R7, R145, D23): open, so it has no body (log 2). -/
opaque parseOverflow : ParseOverflow

end Config

end Sys2Proof
end

