-- ==== Sys2Proof/Machine/OpcodeTable.lean ====
section
/-! DEFINITION. The opcode table of R66, the formats of R62 and the field layout of R61: the one place both the
decoder and the encoder take their numbers from. -/

namespace Sys2Proof

/-- The 26 rows of R66, in the table's order. -/
def Mnemonic.all : List Mnemonic :=
  [.RDREG, .WRREG, .RDFLG, .WRFLG] ++
  [.LDB, .STB, .LDH, .STH, .LDW, .STW, .LDBX] ++
  [.TOSIGNED, .TOUNSIGNED, .BYTES, .SHORTS, .ISZERO, .ISEVEN, .SIGNBIT, .ONESC, .TWOSC, .PARITY] ++
  [.HEXSTR, .PARSE, .SETTXT, .NAME, .VALSTR]

/-- The column OP of R66. -/
def Mnemonic.op : Mnemonic → BitVec 8
  | .RDREG => 0x01
  | .WRREG => 0x02
  | .RDFLG => 0x03
  | .WRFLG => 0x04
  | .LDB => 0x10
  | .STB => 0x11
  | .LDH => 0x12
  | .STH => 0x13
  | .LDW => 0x14
  | .STW => 0x15
  | .LDBX => 0x16
  | .TOSIGNED => 0x20
  | .TOUNSIGNED => 0x21
  | .BYTES => 0x22
  | .SHORTS => 0x23
  | .ISZERO => 0x24
  | .ISEVEN => 0x25
  | .SIGNBIT => 0x26
  | .ONESC => 0x27
  | .TWOSC => 0x28
  | .PARITY => 0x29
  | .HEXSTR => 0x30
  | .PARSE => 0x31
  | .SETTXT => 0x32
  | .NAME => 0x33
  | .VALSTR => 0x34

/-- The column format of R66. -/
def Mnemonic.format : Mnemonic → Format
  | .RDREG | .WRREG | .SETTXT | .NAME | .VALSTR => .CR
  | .HEXSTR => .CH
  | .RDFLG | .WRFLG | .LDB | .STB | .LDH | .STH | .LDW | .STW | .LDBX
  | .TOSIGNED | .TOUNSIGNED | .BYTES | .SHORTS | .ISZERO | .ISEVEN | .SIGNBIT | .ONESC | .TWOSC
  | .PARITY | .PARSE => .CN

/-- The column "ports read" of R66. -/
def Mnemonic.ports : Mnemonic → List Port
  | .RDREG | .RDFLG | .NAME | .VALSTR => []
  | .LDB | .LDH | .LDW => [.P0]
  | .STB | .STH | .STW => [.P0, .P1]
  | .LDBX => [.P0, .P1, .P2]
  | .WRREG | .WRFLG | .TOSIGNED | .TOUNSIGNED | .BYTES | .SHORTS | .ISZERO | .ISEVEN | .SIGNBIT
  | .ONESC | .TWOSC | .PARITY | .HEXSTR => [.P1]
  | .PARSE | .SETTXT => [.T]

/-- The column "result kind" of R66. -/
def Mnemonic.kind : Mnemonic → ResultKind
  | .WRREG | .WRFLG | .STB | .STH | .STW => .none
  | .RDREG | .RDFLG | .LDB | .LDH | .LDW | .LDBX | .TOUNSIGNED | .ONESC | .TWOSC | .PARSE => .W32
  | .TOSIGNED => .I32
  | .BYTES => .B4
  | .SHORTS => .H2
  | .ISZERO | .ISEVEN | .SIGNBIT | .PARITY | .SETTXT => .BOOL
  | .HEXSTR | .NAME | .VALSTR => .TXT

/-- The column mask of R62. -/
def Format.mask : Format → Word
  | .CN => 0xFFFFFFFF
  | .CR => 0xFF0FFFFF
  | .CH => 0xFFF3FFFF

/-- The column match of R62: `OP << 24`. -/
def Mnemonic.matchWord (m : Mnemonic) : Word := m.op.zeroExtend 32 <<< 24

/-- The row of R66 with a given OP, or none (R67). -/
def Mnemonic.ofOp (op : BitVec 8) : Option Mnemonic :=
  Mnemonic.all.find? (fun m => m.op == op)

/-- The mnemonic of a command. -/
def Instr.mnemonic : Instr → Mnemonic
  | .rdreg _ => .RDREG
  | .wrreg _ => .WRREG
  | .rdflg => .RDFLG
  | .wrflg => .WRFLG
  | .ldb => .LDB
  | .stb => .STB
  | .ldh => .LDH
  | .sth => .STH
  | .ldw => .LDW
  | .stw => .STW
  | .ldbx => .LDBX
  | .tosigned => .TOSIGNED
  | .tounsigned => .TOUNSIGNED
  | .bytes => .BYTES
  | .shorts => .SHORTS
  | .iszero => .ISZERO
  | .iseven => .ISEVEN
  | .signbit => .SIGNBIT
  | .onesc => .ONESC
  | .twosc => .TWOSC
  | .parity => .PARITY
  | .hexstr _ => .HEXSTR
  | .parse => .PARSE
  | .settxt _ => .SETTXT
  | .name _ => .NAME
  | .valstr _ => .VALSTR

/-- The command of a row with the operands its format takes: a register for CR, a HexFlag for CH (R62). -/
def Mnemonic.build (m : Mnemonic) (r : Reg) (h : HexFlag) : Instr :=
  match m with
  | .RDREG => .rdreg r
  | .WRREG => .wrreg r
  | .RDFLG => .rdflg
  | .WRFLG => .wrflg
  | .LDB => .ldb
  | .STB => .stb
  | .LDH => .ldh
  | .STH => .sth
  | .LDW => .ldw
  | .STW => .stw
  | .LDBX => .ldbx
  | .TOSIGNED => .tosigned
  | .TOUNSIGNED => .tounsigned
  | .BYTES => .bytes
  | .SHORTS => .shorts
  | .ISZERO => .iszero
  | .ISEVEN => .iseven
  | .SIGNBIT => .signbit
  | .ONESC => .onesc
  | .TWOSC => .twosc
  | .PARITY => .parity
  | .HEXSTR => .hexstr h
  | .PARSE => .parse
  | .SETTXT => .settxt r
  | .NAME => .name r
  | .VALSTR => .valstr r

/-- The fields of a command word (R61). -/
def Fields.ofWord (w : Word) : Fields where
  op := w.extractLsb' 24 8
  f := w.extractLsb' 23 1
  r := w.extractLsb' 20 3
  h := w.extractLsb' 18 2
  z := w.extractLsb' 0 18

/-- The command word with given fields (R61). -/
def Fields.toWord (c : Fields) : Word := c.op ++ c.f ++ c.r ++ c.h ++ c.z

/-- The register file a field F names: 0 is data, 1 is address (R61, R65). -/
def RegFile.ofBit (f : BitVec 1) : RegFile := if f = 0 then .D else .A

/-- The field F of a register file (R61). -/
def RegFile.toBit : RegFile → BitVec 1
  | .D => 0
  | .A => 1

/-- The HexFlag a field H names (R61, R65). -/
def HexFlag.ofBits (h : BitVec 2) : HexFlag :=
  if h = 0 then .none else if h = 1 then .hash else if h = 2 then .zeroX else .dollar

/-- The field H of a HexFlag (R61, R136). -/
def HexFlag.toBits : HexFlag → BitVec 2
  | .none => 0
  | .hash => 1
  | .zeroX => 2
  | .dollar => 3

/-- The register operand of a command word: file from F, index from R (R65). -/
def Fields.reg (c : Fields) : Reg where
  file := RegFile.ofBit c.f
  index := c.r.toFin

/-- The HexFlag operand of a command word (R65). -/
def Fields.hexFlag (c : Fields) : HexFlag := HexFlag.ofBits c.h

/-- The fields of a format-CN command. -/
def Fields.ofOp (m : Mnemonic) : Fields := ⟨m.op, 0, 0, 0, 0⟩

/-- The fields of a format-CR command. -/
def Fields.ofReg (m : Mnemonic) (r : Reg) : Fields := ⟨m.op, r.file.toBit, BitVec.ofFin r.index, 0, 0⟩

/-- The fields of a format-CH command. -/
def Fields.ofHexFlag (m : Mnemonic) (h : HexFlag) : Fields := ⟨m.op, 0, 0, h.toBits, 0⟩

/-- The fields of a command: its operands, and zero in every field its format does not use (R62, R67). -/
def Instr.fields : Instr → Fields
  | .rdreg r => Fields.ofReg .RDREG r
  | .wrreg r => Fields.ofReg .WRREG r
  | .rdflg => Fields.ofOp .RDFLG
  | .wrflg => Fields.ofOp .WRFLG
  | .ldb => Fields.ofOp .LDB
  | .stb => Fields.ofOp .STB
  | .ldh => Fields.ofOp .LDH
  | .sth => Fields.ofOp .STH
  | .ldw => Fields.ofOp .LDW
  | .stw => Fields.ofOp .STW
  | .ldbx => Fields.ofOp .LDBX
  | .tosigned => Fields.ofOp .TOSIGNED
  | .tounsigned => Fields.ofOp .TOUNSIGNED
  | .bytes => Fields.ofOp .BYTES
  | .shorts => Fields.ofOp .SHORTS
  | .iszero => Fields.ofOp .ISZERO
  | .iseven => Fields.ofOp .ISEVEN
  | .signbit => Fields.ofOp .SIGNBIT
  | .onesc => Fields.ofOp .ONESC
  | .twosc => Fields.ofOp .TWOSC
  | .parity => Fields.ofOp .PARITY
  | .hexstr h => Fields.ofHexFlag .HEXSTR h
  | .parse => Fields.ofOp .PARSE
  | .settxt r => Fields.ofReg .SETTXT r
  | .name r => Fields.ofReg .NAME r
  | .valstr r => Fields.ofReg .VALSTR r

end Sys2Proof
end

