-- ==== Sys2Proof/WellFormed.lean ====
section
/-! DEFINITION. When a command word is legal (R67), said over its fields: the OP is assigned, and every field the
format does not use is zero. The decoder tests the same with the mask and match of R62; that the two agree is a
statement. A term of `Instr` cannot name a ninth register or a fifth HexFlag, so its own check is that its fields
are legal. -/

namespace Sys2Proof

/-- The OP is one of the 26 values of R66 (R67). -/
def Fields.opAssigned (c : Fields) : Bool := (Mnemonic.ofOp c.op).isSome

/-- Every field a format does not use is zero (R62, R67). -/
def Fields.unusedZero (c : Fields) : Format → Bool
  | .CN => c.f == 0 && c.r == 0 && c.h == 0 && c.z == 0
  | .CR => c.h == 0 && c.z == 0
  | .CH => c.f == 0 && c.r == 0 && c.z == 0

/-- A legal command word, by its fields (R67). -/
def Fields.wellFormed (c : Fields) : Bool :=
  match Mnemonic.ofOp c.op with
  | none => false
  | some m => c.unusedZero m.format

/-- A command whose fields are legal. -/
def Instr.wellFormed (i : Instr) : Bool := i.fields.wellFormed

end Sys2Proof
end

