-- ==== Sys2Proof/Decode.lean ====
section
/-! DEFINITION. The decoder of R67 (total, rejecting by name), the encoder written from the same table, and the
decoder as the opcode table numbers a row's bits. -/

namespace Sys2Proof

/-- Decoding (R67): the row with the word's OP, then the mask and match of its format, then the operands (R65). -/
def decode (w : Word) : Decoded :=
  match Mnemonic.ofOp (Fields.ofWord w).op with
  | none => .error .reservedOpcode
  | some m =>
    if w &&& m.format.mask = m.matchWord then
      .ok (m.build (Fields.ofWord w).reg (Fields.ofWord w).hexFlag)
    else .error .unusedFieldNotZero

/-- The one word of a command (R61, R62, R69). -/
def encode (i : Instr) : Word := i.fields.toWord

/-- The decoder on a row of the opcode table. Every command is exactly one 32-bit word (R69), so bit k of the row is
bit k of the word and the bits above `nbits` are zero. A number with a bit above 31 is no command word (log 17). -/
def decodeTableWord (nbits w : Nat) : Option Instr :=
  let v := w % 2 ^ nbits
  if v < 2 ^ 32 then
    match decode (BitVec.ofNat 32 v) with
    | .ok i => some i
    | .error _ => none
  else none

end Sys2Proof
end

