-- ==== Sys2Proof/Machine/State.lean ====
section
/-! DEFINITION. The construction parameters (R7, R21), the block's state (the four parts of R20), and the machine's state:
the two, the request ports of the request in service and the responses given (R60, R63, R64, R189), and the requests
the host will issue (R186, R189). Plain data throughout. -/

namespace Sys2Proof.Machine

/-- A request (R60): the command word, the three operand ports and the text operand. -/
structure Request where
  cmd : Word
  p0 : Word
  p1 : Word
  p2 : Word
  text : Text
deriving DecidableEq, Repr

/-- The status of a response (R64, R165). `alignmentError` is in the taxonomy and never produced (R162). -/
inductive Status where
  | ok
  | accessError
  | alignmentError
  | parseFailure
  | illegalCommand
deriving DecidableEq, Repr

/-- A response (R64): the ports ST, FA, RD, SG, RB and RT. -/
structure Response where
  st : Status
  fa : FaultAddress
  rd : Word
  sg : Bool
  rb : Bool
  rt : Text
deriving DecidableEq, Repr

/-- The memory's contents: (address, byte) cells with strictly rising addresses and no zero byte
(`Memory.wf`). An address that is not listed holds 0x00, as every byte does after construction (R32, R41). -/
abbrev Memory := List Host.Cell

/-- The construction parameters (R7, R21): configuration, which every operation takes as an argument and none can
answer. -/
structure Params where
  /-- MEM_SIZE, fixed at construction (R7, R42). -/
  memSize : MemSize
  /-- PARSE_OVERFLOW, fixed at construction (R7, R145). -/
  parseOverflow : ParseOverflow
deriving DecidableEq, Repr

/-- The block's state: exactly the four parts of R20, and no parameter among them (R21). -/
structure Block where
  /-- The memory (R30, R40). -/
  mem : Memory
  /-- D0..D7 (R22). -/
  dregs : Vector Word 8
  /-- A0..A7 (R22). -/
  aregs : Vector Word 8
  /-- Z is bit 0, C is bit 1, V is bit 2 (R26). -/
  flags : BitVec 3
deriving DecidableEq, Repr

/-- What one step of the machine starts from: the parameters of the block that was constructed, the block's state, the
command interface (R60: `req` and `responses`), and the host's side of it (`script`, log 4). The parameters stand beside
the block's state because `step` takes one argument (log 2). -/
structure State extends Params, Block where
  /-- The request ports of the request in service (R60, R63). -/
  req : Request
  /-- The requests the host will issue, next first (R186, R189). -/
  script : List Request
  /-- The responses given so far, oldest first (R160, R189). -/
  responses : List Response
deriving DecidableEq, Repr

/-- What stops the machine: nothing. Every error of the block is a response, after which the next request is served
normally (R160, R166), so no step raises a fault and the type has no constructor (log 5; safe: no behaviour of the
block is cut off). -/
inductive Fault : Type
deriving DecidableEq, Repr

/-- Why an instruction has no meaning in the model. -/
inductive Refusal where
  /-- Raised by `exec` for an instruction the model gives no meaning yet; no arm uses it (safe: the model stops). -/
  | notModelled (mnemonic : String)
deriving DecidableEq, Repr

/-- The outcome of a step of this machine. -/
abbrev Outcome := Host.Outcome State Fault Refusal

/-- The request ports before the first request. DESIGN CHOICE (log 7): zero and empty; a step reads no port
before a request has arrived on it. -/
def Request.quiet : Request where
  cmd := 0
  p0 := 0
  p1 := 0
  p2 := 0
  text := []

/-- The block's state after construction (R32, R180): every byte zero, the flags clear, each register at REG_INIT. -/
def Block.construct (regInit : RegFile → Fin 8 → Word) : Block where
  mem := []
  dregs := Vector.ofFn (regInit .D)
  aregs := Vector.ofFn (regInit .A)
  flags := 0

/-- Construction with the three parameters of R7 (R180), before any request. -/
def State.construct (memSize : MemSize) (regInit : RegFile → Fin 8 → Word) (parseOverflow : ParseOverflow) :
    State where
  toParams := ⟨memSize, parseOverflow⟩
  toBlock := Block.construct regInit
  req := Request.quiet
  script := []
  responses := []

/-- The block right after construction with the three parameters the spec leaves open (R7, R32, R180). -/
def State.reset : State :=
  State.construct Config.memSize Config.regInit Config.parseOverflow

end Sys2Proof.Machine
end

