-- ==== Sys2Proof/Machine/Ops.lean ====
section
/-! DEFINITION. The named operations over memory, registers and the command interface: the access primitives of R46
and R47, register reads and writes (R120, R121), the response (R64), the one way an error is answered (R160), what an
operation is (R60), and how the machine performs one. -/

namespace Sys2Proof.Machine

/-! ## Memory -/

/-- The byte at an address: the last value written to it, or 0x00 (R41). -/
def Memory.read : Memory → Nat → Byte
  | [], _ => 0
  | (k, v) :: m, a => if k = a then v else Memory.read m a

/-- The memory with one byte overwritten (R41). It keeps the canonical form: a zero byte is not listed. -/
def Memory.write : Memory → Nat → Byte → Memory
  | [], a, b => if b = 0 then [] else [(a, b)]
  | (k, v) :: m, a, b =>
    if a < k then (if b = 0 then (k, v) :: m else (a, b) :: (k, v) :: m)
    else if a = k then (if b = 0 then m else (a, b) :: m)
    else (k, v) :: Memory.write m a b

/-- Every listed address is at least `lo`, the addresses rise strictly and no listed byte is zero. -/
def Memory.wfFrom : Nat → Memory → Bool
  | _, [] => true
  | lo, (k, v) :: m => decide (lo ≤ k) && (v != 0) && Memory.wfFrom (k + 1) m

/-- The canonical form: strictly rising addresses, no entry equal to what an unlisted address reads as. -/
def Memory.wf (m : Memory) : Bool := Memory.wfFrom 0 m

/-- MemRead (R46): `n` bytes from the natural number `a` up, in ascending order, failing at the first byte outside
the memory with that byte's address. -/
def memRead (size : Nat) (m : Memory) : Nat → Nat → Except Nat (List Byte)
  | _, 0 => .ok []
  | a, n + 1 =>
    if size ≤ a then .error a
    else
      match memRead size m (a + 1) n with
      | .ok bs => .ok (Memory.read m a :: bs)
      | .error e => .error e

/-- MemWrite (R47): the bytes of `bs`, most significant first, at `a` and up in ascending order. Each byte is checked
by itself; the first byte outside the memory ends the write with its address, and the bytes before it stay
written (C2, D6; log 11). -/
def memWrite (size : Nat) : Nat → List Byte → Memory → Memory × Option Nat
  | _, [], m => (m, none)
  | a, b :: bs, m =>
    if size ≤ a then (m, some a) else memWrite size (a + 1) bs (Memory.write m a b)

/-- Big-endian composition (R44, R45, R46): the first byte is the most significant. Composing at 32 bits gives the
composition at the access width, zero-extended (R65; log 15). -/
def composeBytes (bs : List Byte) : Word :=
  bs.foldl (fun v b => (v <<< 8) ||| b.zeroExtend 32) 0

/-- The packing of half-words on RD for a result of kind H2 (R64, R83): the first is the most significant. -/
def composeHalves (hs : List Half) : Word :=
  hs.foldl (fun v h => (v <<< 16) ||| h.zeroExtend 32) 0

/-! ## Registers -/

/-- `x[F][i]` (R11, R120). -/
def Block.readReg (b : Block) (r : Reg) : Word :=
  match r.file with
  | .D => b.dregs[r.index.val]
  | .A => b.aregs[r.index.val]

/-- `x[F][i] <- v` (R11, R121): the two files are separate storage (R23). -/
def Block.writeReg (b : Block) (r : Reg) (v : Word) : Block :=
  match r.file with
  | .D => { b with dregs := b.dregs.set r.index.val v }
  | .A => { b with aregs := b.aregs.set r.index.val v }

/-! ## Responses -/

/-- OK with no result (R64). -/
def Response.plain : Response where
  st := .ok
  fa := 0
  rd := 0
  sg := false
  rb := false
  rt := []

/-- OK with a result of kind W32, B4 or H2: the word on RD (R64). -/
def Response.word (v : Word) : Response := { Response.plain with rd := v }

/-- OK with a result of kind I32: the pattern on RD and SG = 1 (R64). -/
def Response.signed (v : Word) : Response := { Response.plain with rd := v, sg := true }

/-- OK with a result of kind BOOL: one bit on RB (R64). -/
def Response.bool (b : Bool) : Response := { Response.plain with rb := b }

/-- OK with a result of kind TXT: a text on RT (R64). -/
def Response.txt (t : Text) : Response := { Response.plain with rt := t }

/-- Byte k of a result of kind B4: `RD[31-8k : 24-8k]`, byte 0 the most significant (R64). -/
def Response.b4 (r : Response) (k : Fin 4) : Byte := r.rd.extractLsb' (24 - 8 * k.val) 8

/-- Half k of a result of kind H2: `RD[31-16k : 16-16k]`, half 0 the most significant (R64). -/
def Response.h2 (r : Response) (k : Fin 2) : Half := r.rd.extractLsb' (16 - 16 * k.val) 16

/-- The code of a status on the port ST (R64, R165). -/
def Status.code : Status → BitVec 3
  | .ok => 0
  | .accessError => 1
  | .alignmentError => 2
  | .parseFailure => 3
  | .illegalCommand => 4

/-- The errors the block raises (R165). AlignmentError is not among them (R162). -/
inductive BlockError where
  | access (a : Nat)
  | parseFailure
  | illegalCommand
deriving DecidableEq, Repr

/-- The status of an error (R165). -/
def BlockError.status : BlockError → Status
  | .access _ => .accessError
  | .parseFailure => .parseFailure
  | .illegalCommand => .illegalCommand

/-- What an error records on FA (R165): AccessError its address, the others 0. -/
def BlockError.faultAddress : BlockError → FaultAddress
  | .access a => BitVec.ofNat 34 a
  | .parseFailure => 0
  | .illegalCommand => 0

/-- An error response: the result ports are zero or empty (R64). -/
def Response.error (e : BlockError) : Response :=
  { Response.plain with st := e.status, fa := e.faultAddress }

/-! ## Operations -/

/-- An operation of the block (R7, R21, R31, R60): from the construction parameters, the request and the block's state
to the block's new state and the response. It runs to completion, and neither writes a parameter nor sees the host. -/
abbrev Operation := Params → Request → Block → Block × Response

/-- `return r` (R11): an OK response. -/
def Block.ok (b : Block) (r : Response) : Block × Response := (b, r)

/-- Raising an error (R11, R160, R166): the one way any operation ends in an error. There is no trap: nothing is saved,
no vector is taken, and the state stays as it stands; the error is the response. There is no return from it
(R168). -/
def Block.raise (b : Block) (e : BlockError) : Block × Response := (b, Response.error e)

/-- What an illegal word is answered (R67, R164): IllegalCommand; no operand is read and no state changes. -/
def opIllegal : Operation := fun _ _ b => b.raise .illegalCommand

/-- The shared form of the reads (R100, R102, R104, R106): MemRead, then the value on RD or the AccessError. -/
def load (size : MemSize) (a n : Nat) (b : Block) : Block × Response :=
  match memRead size.val b.mem a n with
  | .ok bs => b.ok (Response.word (composeBytes bs))
  | .error e => b.raise (.access e)

/-- The shared form of the stores (R101, R103, R105): MemWrite, then OK or the AccessError; a failing store keeps the
bytes it wrote (R47, R166). -/
def store (size : MemSize) (a : Nat) (bs : List Byte) (b : Block) : Block × Response :=
  match memWrite size.val a bs b.mem with
  | (m, none) => { b with mem := m }.ok Response.plain
  | (m, some e) => { b with mem := m }.raise (.access e)

/-! ## The command interface -/

/-- The host adds a request to those it will issue: the one input of the machine, between steps (R186). -/
def State.issue (s : State) (q : Request) : State := { s with script := s.script ++ [q] }

/-- The host issues a request: it stands on the request ports until the next one (R60, R186). -/
def State.accept (s : State) (q : Request) (rest : List Request) : State :=
  { s with req := q, script := rest }

/-- The request in service is answered (R60, R160): the block has its new state, and the response joins the sequence of
responses (R189). -/
def State.answer (s : State) (x : Block × Response) : State :=
  { s with toBlock := x.1, responses := s.responses ++ [x.2] }

/-- An operation serves the request on the ports, with the parameters of the constructed block (R60, R188). -/
def State.perform (s : State) (f : Operation) : Outcome := .next (s.answer (f s.toParams s.req s.toBlock))

end Sys2Proof.Machine
end

