-- ==== Sys2Proof/Machine/Operands.lean ====
section
/-! DEFINITION. Operand assembly (R63, R65): which bits of which port an operation takes. A register operand and a
HexFlag come with the decoded command; everything else is here. -/

namespace Sys2Proof.Machine

/-- The decomposition of a value into bytes, most significant first (R82). -/
def bytesOf (v : Word) : List Byte :=
  [v.extractLsb' 24 8, v.extractLsb' 16 8, v.extractLsb' 8 8, v.extractLsb' 0 8]

/-- The decomposition of a value into half-words, most significant first (R83). -/
def shortsOf (v : Word) : List Half := [v.extractLsb' 16 16, v.extractLsb' 0 16]

/-- The address operand of LDB, STB, LDH, STH, LDW and STW: `uint(P0)` (R63). -/
def Request.address (q : Request) : Nat := q.p0.toNat

/-- The address of LDBX: the exact sum of base, index and offset, with no wrap (R65, R106). -/
def Request.indexedAddress (q : Request) : Nat := q.p0.toNat + q.p1.toNat + q.p2.toNat

/-- The value operand of the operations of 41_value_ops.md, HEXSTR and WRREG: P1 (R63). -/
def Request.value (q : Request) : Word := q.p1

/-- The byte STB stores: `P1[7:0]`, the last of the four bytes (R65, R101). -/
def Request.storeByte (q : Request) : List Byte := (bytesOf q.p1).drop 3

/-- The half-word STH stores: `P1[15:8]` then `P1[7:0]`, the last two of the four bytes (R65, R103, C1; log 10). -/
def Request.storeHalf (q : Request) : List Byte := (bytesOf q.p1).drop 2

/-- The word STW stores: the four bytes of P1 (R105). -/
def Request.storeWord (q : Request) : List Byte := bytesOf q.p1

end Sys2Proof.Machine
end

