-- ==== Sys2Proof/Machine/MemoryAccess.lean ====
section
/-! DEFINITION. Memory operations (42_memory_access.md): LDB, STB, LDH, STH, LDW, STW, LDBX. -/

namespace Sys2Proof.Machine

/-- LDB (R100): the byte at `uint(P0)`. -/
def opLdb : Operation := fun p q => load p.memSize q.address 1

/-- LDB on the request in service. -/
def execLdb (s : State) : Outcome := s.perform opLdb

/-- STB (R101): `P1[7:0]` to `uint(P0)`. -/
def opStb : Operation := fun p q => store p.memSize q.address q.storeByte

/-- STB on the request in service. -/
def execStb (s : State) : Outcome := s.perform opStb

/-- LDH (R102): the half-word at `uint(P0)`. -/
def opLdh : Operation := fun p q => load p.memSize q.address 2

/-- LDH on the request in service. -/
def execLdh (s : State) : Outcome := s.perform opLdh

/-- STH (R103): `P1[15:0]` to `uint(P0)`. -/
def opSth : Operation := fun p q => store p.memSize q.address q.storeHalf

/-- STH on the request in service. -/
def execSth (s : State) : Outcome := s.perform opSth

/-- LDW (R104): the word at `uint(P0)`. -/
def opLdw : Operation := fun p q => load p.memSize q.address 4

/-- LDW on the request in service. -/
def execLdw (s : State) : Outcome := s.perform opLdw

/-- STW (R105): P1 to `uint(P0)`. -/
def opStw : Operation := fun p q => store p.memSize q.address q.storeWord

/-- STW on the request in service. -/
def execStw (s : State) : Outcome := s.perform opStw

/-- LDBX (R106): the byte at the exact sum of P0, P1 and P2. -/
def opLdbx : Operation := fun p q => load p.memSize q.indexedAddress 1

/-- LDBX on the request in service. -/
def execLdbx (s : State) : Outcome := s.perform opLdbx

end Sys2Proof.Machine
end

