-- ==== Sys2Proof/Machine/Flags.lean ====
section
/-! DEFINITION. The flag register (R26): the three named bits, how RDFLG shows them and how WRFLG sets them. No other
operation reads or writes them, and none computes them (R27). -/

namespace Sys2Proof.Machine

/-- Z, the zero flag: bit 0 (R26). -/
def Block.flagZ (b : Block) : Bool := b.flags.getLsbD 0

/-- C, the carry flag: bit 1 (R26). -/
def Block.flagC (b : Block) : Bool := b.flags.getLsbD 1

/-- V, the overflow flag: bit 2 (R26). -/
def Block.flagV (b : Block) : Bool := b.flags.getLsbD 2

/-- The word RDFLG answers: the flags, zero-extended (R122). -/
def flagsWord (f : BitVec 3) : Word := f.zeroExtend 32

/-- The flags WRFLG takes from a word: `P1[2:0]`, the other bits ignored (R65, R123). -/
def flagsOfWord (v : Word) : BitVec 3 := v.extractLsb' 0 3

/-- Writing the flag register (R123). -/
def Block.writeFlags (b : Block) (f : BitVec 3) : Block := { b with flags := f }

end Sys2Proof.Machine
end

