-- ==== Sys2Proof/Machine/RegisterFile.lean ====
section
/-! DEFINITION. Register file and flag access (43_register_file.md): RDREG, WRREG, RDFLG, WRFLG. -/

namespace Sys2Proof.Machine

/-- RDREG (R120): the register's value on RD. -/
def opRdreg (r : Reg) : Operation := fun _ _ b => b.ok (Response.word (b.readReg r))

/-- RDREG on the request in service. -/
def execRdreg (r : Reg) (s : State) : Outcome := s.perform (opRdreg r)

/-- WRREG (R121): the register takes P1. -/
def opWrreg (r : Reg) : Operation := fun _ q b => (b.writeReg r q.value).ok Response.plain

/-- WRREG on the request in service. -/
def execWrreg (r : Reg) (s : State) : Outcome := s.perform (opWrreg r)

/-- RDFLG (R122): the flags, zero-extended, on RD. -/
def opRdflg : Operation := fun _ _ b => b.ok (Response.word (flagsWord b.flags))

/-- RDFLG on the request in service. -/
def execRdflg (s : State) : Outcome := s.perform opRdflg

/-- WRFLG (R123): the flags take `P1[2:0]`. -/
def opWrflg : Operation := fun _ q b => (b.writeFlags (flagsOfWord q.p1)).ok Response.plain

/-- WRFLG on the request in service. -/
def execWrflg (s : State) : Outcome := s.perform opWrflg

end Sys2Proof.Machine
end

