-- ==== Sys2Proof/Machine/HexText.lean ====
section
/-! DEFINITION. Hexadecimal text (44_text_interface.md §1 to §3): the HexFlag texts, formatting, and the parser. -/

namespace Sys2Proof.Machine

/-! ## Formatting -/

/-- The text a HexFlag puts before the digits (R136). -/
def hexFlagText : HexFlag → Text
  | .none => []
  | .hash => ['#']
  | .zeroX => ['0', 'x']
  | .dollar => ['$']

/-- The digits formatting writes, in the order of their values: lowercase (R137). -/
def lowerDigits : List Char :=
  ['0', '1', '2', '3', '4', '5', '6', '7', '8', '9', 'a', 'b', 'c', 'd', 'e', 'f']

/-- The lowercase digit of a value 0..15 (R137). -/
def lowerDigit (d : Nat) : Char := lowerDigits.getD d '0'

/-- The natural base-16 digits of a number below 16^fuel, most significant first, no leading zeros; `0` for zero. -/
def naturalDigits : Nat → Nat → List Nat
  | 0, _ => []
  | fuel + 1, n => if n < 16 then [n] else naturalDigits fuel (n / 16) ++ [n % 16]

/-- `hexString(v, flag)` (R138): the flag's text, then zeros up to a width of 8, then the natural digits. -/
def hexString (v : Word) (h : HexFlag) : Text :=
  let n := (naturalDigits 8 v.toNat).map lowerDigit
  hexFlagText h ++ List.replicate (8 - n.length) '0' ++ n

/-! ## Parsing -/

/-- PFX, the single prefix characters (R140). -/
def prefixChars : List Char := ['#', '$']

/-- The hex digits of the parser, in the order of their values: uppercase only (R140, R146). -/
def parseDigits : List Char :=
  ['0', '1', '2', '3', '4', '5', '6', '7', '8', '9', 'A', 'B', 'C', 'D', 'E', 'F']

/-- HEXSET, the scan set: the hex digits and the underscore (R140). -/
def scanSet : List Char := parseDigits ++ ['_']

/-- The value of a hex digit: its place in the list (R140). -/
def digitValue (c : Char) : Nat := parseDigits.idxOf c

/-- Skipping the optional prefix: the two characters `0x`, or else the longest run of `#` and `$` (R141, D21). -/
def skipPrefix (t : Text) : Text :=
  if t.take 2 = ['0', 'x'] then t.drop 2 else t.dropWhile (fun c => prefixChars.contains c)

/-- The digits of a text: the maximal run from the scan set after the prefix, without its underscores
(R142, R143). -/
def digitRun (t : Text) : Text :=
  ((skipPrefix t).takeWhile (fun c => scanSet.contains c)).filter (fun c => c != '_')

/-- The base-16 number of a digit string, most significant first, exact (R143). -/
def hexNumber (ds : Text) : Nat := ds.foldl (fun n c => n * 16 + digitValue c) 0

/-- `parse(t)` (R143): none when no digit is left (R144), or when the number is 2^32 or more and PARSE_OVERFLOW is
`fail` (R145). -/
def parseText (o : ParseOverflow) (t : Text) : Option Word :=
  if digitRun t = [] then none
  else if hexNumber (digitRun t) < 2 ^ 32 then some (BitVec.ofNat 32 (hexNumber (digitRun t)))
  else
    match o with
    | .fail => none
    | .wrap => some (BitVec.ofNat 32 (hexNumber (digitRun t)))

/-! ## Register names -/

/-- The display letter of a register file (R150). -/
def fileLetter : RegFile → Char
  | .D => 'D'
  | .A => 'A'

/-- `nameString` (R150): the letter and the index as one decimal digit. -/
def regName (r : Reg) : Text := [fileLetter r.file, lowerDigit r.index.val]

end Sys2Proof.Machine
end

