-- ==== Sys2Proof/Machine/TextInterface.lean ====
section
/-! DEFINITION. The text operations (44_text_interface.md): HEXSTR, PARSE, SETTXT, NAME, VALSTR. -/

namespace Sys2Proof.Machine

/-- HEXSTR (R139): P1 as text in the style of the HexFlag. -/
def opHexstr (h : HexFlag) : Operation := fun _ q b => b.ok (Response.txt (hexString q.value h))

/-- HEXSTR on the request in service. -/
def execHexstr (h : HexFlag) (s : State) : Outcome := s.perform (opHexstr h)

/-- PARSE (R147): the value of the text, or ParseFailure. -/
def opParse : Operation := fun p q b =>
  match parseText p.parseOverflow q.text with
  | some v => b.ok (Response.word v)
  | none => b.raise .parseFailure

/-- PARSE on the request in service. -/
def execParse (s : State) : Outcome := s.perform opParse

/-- SETTXT (R149): the register takes the value of the text, or zero when parsing fails; RB tells which. -/
def opSettxt (r : Reg) : Operation := fun p q b =>
  match parseText p.parseOverflow q.text with
  | some v => (b.writeReg r v).ok (Response.bool true)
  | none => (b.writeReg r 0).ok (Response.bool false)

/-- SETTXT on the request in service. -/
def execSettxt (r : Reg) (s : State) : Outcome := s.perform (opSettxt r)

/-- NAME (R150): the register's name. -/
def opName (r : Reg) : Operation := fun _ _ b => b.ok (Response.txt (regName r))

/-- NAME on the request in service. -/
def execName (r : Reg) (s : State) : Outcome := s.perform (opName r)

/-- VALSTR (R151): the register's value as text in the `#` style. -/
def opValstr (r : Reg) : Operation := fun _ _ b => b.ok (Response.txt (hexString (b.readReg r) .hash))

/-- VALSTR on the request in service. -/
def execValstr (r : Reg) (s : State) : Outcome := s.perform (opValstr r)

end Sys2Proof.Machine
end

