-- ==== Sys2Proof/Machine/ValueOps.lean ====
section
/-! DEFINITION. Value operations (41_value_ops.md): pure functions of the value on P1, which write nothing but their
response (R90). -/

namespace Sys2Proof.Machine

/-- The XOR-fold of all 32 bits (R89). -/
def xorFold (v : Word) : Bool :=
  (List.range 32).foldl (fun p k => p ^^ v.getLsbD k) false

/-- TOSIGNED (R80): the same bits, as a signed result. -/
def opTosigned : Operation := fun _ q b => b.ok (Response.signed q.value)

/-- TOSIGNED on the request in service. -/
def execTosigned (s : State) : Outcome := s.perform opTosigned

/-- TOUNSIGNED (R81): the same bits, as an unsigned result. -/
def opTounsigned : Operation := fun _ q b => b.ok (Response.word q.value)

/-- TOUNSIGNED on the request in service. -/
def execTounsigned (s : State) : Outcome := s.perform opTounsigned

/-- BYTES (R82): the four bytes, most significant first, packed on RD. -/
def opBytes : Operation := fun _ q b => b.ok (Response.word (composeBytes (bytesOf q.value)))

/-- BYTES on the request in service. -/
def execBytes (s : State) : Outcome := s.perform opBytes

/-- SHORTS (R83): the two half-words, most significant first, packed on RD. -/
def opShorts : Operation := fun _ q b => b.ok (Response.word (composeHalves (shortsOf q.value)))

/-- SHORTS on the request in service. -/
def execShorts (s : State) : Outcome := s.perform opShorts

/-- ISZERO (R84). -/
def opIszero : Operation := fun _ q b => b.ok (Response.bool (q.value == 0))

/-- ISZERO on the request in service. -/
def execIszero (s : State) : Outcome := s.perform opIszero

/-- ISEVEN (R85): bit 0 is clear. -/
def opIseven : Operation := fun _ q b => b.ok (Response.bool (!q.value.getLsbD 0))

/-- ISEVEN on the request in service. -/
def execIseven (s : State) : Outcome := s.perform opIseven

/-- SIGNBIT (R86): bit 31. -/
def opSignbit : Operation := fun _ q b => b.ok (Response.bool (q.value.getLsbD 31))

/-- SIGNBIT on the request in service. -/
def execSignbit (s : State) : Outcome := s.perform opSignbit

/-- ONESC (R87): XOR with all ones. -/
def opOnesc : Operation := fun _ q b => b.ok (Response.word (q.value ^^^ 0xFFFFFFFF))

/-- ONESC on the request in service. -/
def execOnesc (s : State) : Outcome := s.perform opOnesc

/-- TWOSC (R88): the one's complement plus one, modulo 2^32. -/
def opTwosc : Operation := fun _ q b => b.ok (Response.word ((q.value ^^^ 0xFFFFFFFF) + 1))

/-- TWOSC on the request in service. -/
def execTwosc (s : State) : Outcome := s.perform opTwosc

/-- PARITY (R89): true when the XOR-fold is 0, that is, when the number of set bits is even (C4). -/
def opParity : Operation := fun _ q b => b.ok (Response.bool (!xorFold q.value))

/-- PARITY on the request in service. -/
def execParity (s : State) : Outcome := s.perform opParity

end Sys2Proof.Machine
end

