-- ==== Sys2Proof/Machine/Dispatch.lean ====
section
/-! DEFINITION. The meaning of each command: one arm per constructor of `Instr`. -/

namespace Sys2Proof.Machine

def exec (i : Instr) (s : State) : Host.Outcome State Fault Refusal :=
  match i with
  | .rdreg r => Sys2Proof.Machine.execRdreg r s
  | .wrreg r => Sys2Proof.Machine.execWrreg r s
  | .rdflg => Sys2Proof.Machine.execRdflg s
  | .wrflg => Sys2Proof.Machine.execWrflg s
  | .ldb => Sys2Proof.Machine.execLdb s
  | .stb => Sys2Proof.Machine.execStb s
  | .ldh => Sys2Proof.Machine.execLdh s
  | .sth => Sys2Proof.Machine.execSth s
  | .ldw => Sys2Proof.Machine.execLdw s
  | .stw => Sys2Proof.Machine.execStw s
  | .ldbx => Sys2Proof.Machine.execLdbx s
  | .tosigned => Sys2Proof.Machine.execTosigned s
  | .tounsigned => Sys2Proof.Machine.execTounsigned s
  | .bytes => Sys2Proof.Machine.execBytes s
  | .shorts => Sys2Proof.Machine.execShorts s
  | .iszero => Sys2Proof.Machine.execIszero s
  | .iseven => Sys2Proof.Machine.execIseven s
  | .signbit => Sys2Proof.Machine.execSignbit s
  | .onesc => Sys2Proof.Machine.execOnesc s
  | .twosc => Sys2Proof.Machine.execTwosc s
  | .parity => Sys2Proof.Machine.execParity s
  | .hexstr h => Sys2Proof.Machine.execHexstr h s
  | .parse => Sys2Proof.Machine.execParse s
  | .settxt r => Sys2Proof.Machine.execSettxt r s
  | .name r => Sys2Proof.Machine.execName r s
  | .valstr r => Sys2Proof.Machine.execValstr r s

end Sys2Proof.Machine
end

