-- ==== Sys2Proof/Machine/Step.lean ====
section
/-! DEFINITION. One step serves one request (R60, R188): the host issues it, it is decoded (R67), and its operation runs
to completion and answers. With no request there is nothing to serve and nothing changes (R181; log 5). -/

namespace Sys2Proof.Machine

/-- Serving one request. An illegal word reads no operand and changes no state but the response (R67, R164). -/
def step (s : State) : Host.Outcome State Fault Refusal :=
  match s.script with
  | [] => .next s
  | q :: rest =>
    match decode q.cmd with
    | .ok i => exec i (s.accept q rest)
    | .error _ => (s.accept q rest).perform opIllegal

/-- The state whose next step serves the given command word: the word becomes the CMD of the next request the host
issues; with none scheduled, of one whose other ports stay as they are (log 6). -/
def State.withFetchWord (s : State) (nbits w : Nat) : State :=
  match s.script with
  | [] => { s with script := [{ s.req with cmd := BitVec.ofNat 32 (w % 2 ^ nbits) }] }
  | q :: rest => { s with script := { q with cmd := BitVec.ofNat 32 (w % 2 ^ nbits) } :: rest }

end Sys2Proof.Machine
end

