-- ==== Sys2Proof/Machine/Serve.lean ====
section
/-! DEFINITION. The block by itself, with its parameters as arguments (R7, R21): one request served (R60), and a host's
sequence of requests (R186, R189). The step of the machine is this on the parameters of the constructed block; that it is,
is a statement. -/

namespace Sys2Proof.Machine

/-- The operation of each command (R66). -/
def operationOf : Instr → Operation
  | .rdreg r => opRdreg r
  | .wrreg r => opWrreg r
  | .rdflg => opRdflg
  | .wrflg => opWrflg
  | .ldb => opLdb
  | .stb => opStb
  | .ldh => opLdh
  | .sth => opSth
  | .ldw => opLdw
  | .stw => opStw
  | .ldbx => opLdbx
  | .tosigned => opTosigned
  | .tounsigned => opTounsigned
  | .bytes => opBytes
  | .shorts => opShorts
  | .iszero => opIszero
  | .iseven => opIseven
  | .signbit => opSignbit
  | .onesc => opOnesc
  | .twosc => opTwosc
  | .parity => opParity
  | .hexstr h => opHexstr h
  | .parse => opParse
  | .settxt r => opSettxt r
  | .name r => opName r
  | .valstr r => opValstr r

/-- The block serves one request (R60, R67): parameters, request and state to the new state and the response. -/
def serveRequest : Operation := fun p q b =>
  match decode q.cmd with
  | .ok i => operationOf i p q b
  | .error _ => opIllegal p q b

/-- What a host program leaves behind (R189): the block's state after its last response, and the responses. -/
def serveAll (p : Params) : List Request → Block → Block × List Response
  | [], b => (b, [])
  | q :: qs, b =>
    let x := serveRequest p q b
    let y := serveAll p qs x.1
    (y.1, x.2 :: y.2)

end Sys2Proof.Machine
end

