-- ==== Sys2Proof/Machine/Pseudo.lean ====
section
/-! DEFINITION. The assembler's aliases and pseudo-operations (R71), carried out as the spec says: the host sends one
command, takes its result, and puts it into an operand of the next (log 19). -/

namespace Sys2Proof.Machine

/-- The request of a command with given operand ports (R60). -/
def command (i : Instr) (p0 p1 p2 : Word) (t : Text) : Request where
  cmd := encode i
  p0 := p0
  p1 := p1
  p2 := p2
  text := t

/-- The request of a command whose one operand is on P1; the ports it does not read hold zero (R63). -/
def valueCommand (i : Instr) (v : Word) : Request := command i 0 v 0 []

/-- The host sends one request and the block serves it (R186): ahead of what else the host will issue. -/
def send (q : Request) (s : State) : Outcome := step { s with script := q :: s.script }

/-- The host goes on after an outcome only when the block answered. -/
def andThen (o : Outcome) (k : State → Outcome) : Outcome :=
  match o with
  | .next s => k s
  | .fault r => .fault r
  | .refused r => .refused r

/-- The result word of the last response, which the host moves into the next command (R71). -/
def State.lastResult (s : State) : Word :=
  match s.responses.getLast? with
  | some r => r.rd
  | none => 0

/-- `LTZ num`: `SIGNBIT num` (R71). -/
def runLtz (v : Word) (s : State) : Outcome := send (valueCommand .signbit v) s

/-- `CLR reg`: `WRREG reg, $0` (R71). -/
def runClr (r : Reg) (s : State) : Outcome := send (valueCommand (.wrreg r) 0) s

/-- `CLRFLG`: `WRFLG $0` (R71). -/
def runClrflg (s : State) : Outcome := send (valueCommand .wrflg 0) s

/-- `MOV rd, rs`: `RDREG rs`, then `WRREG rd` with its result (R71). -/
def runMov (rd rs : Reg) (s : State) : Outcome :=
  andThen (send (valueCommand (.rdreg rs) 0) s) fun s1 =>
    send (valueCommand (.wrreg rd) s1.lastResult) s1

/-- `NEGREG reg`: `RDREG reg`, then `TWOSC` of its result, then `WRREG reg` with that (R71). -/
def runNegreg (r : Reg) (s : State) : Outcome :=
  andThen (send (valueCommand (.rdreg r) 0) s) fun s1 =>
    andThen (send (valueCommand .twosc s1.lastResult) s1) fun s2 =>
      send (valueCommand (.wrreg r) s2.lastResult) s2

/-- The expansion of each pseudo-operation (R71). -/
def runPseudo : Pseudo → State → Outcome
  | .ltz v, s => runLtz v s
  | .clr r, s => runClr r s
  | .clrflg, s => runClrflg s
  | .mov rd rs, s => runMov rd rs s
  | .negreg r, s => runNegreg r s

end Sys2Proof.Machine
end

