-- ==== Sys2Proof/Machine/Assembler.lean ====
section
/-! DEFINITION. The host's assembler (R70, R71): a line of text to a request, or to a pseudo-operation. It is no part of
the block and no operation depends on it; its literals are not read by the block's PARSE. -/

namespace Sys2Proof.Machine

/-! ## Literals -/

/-- The uppercase form of a lowercase hex digit; any other character unchanged (R70: either case). -/
def upperHex (c : Char) : Char :=
  if lowerDigits.contains c then parseDigits.getD (lowerDigits.idxOf c) c else c

/-- A hex digit of an assembler literal, in either case (R70). -/
def isHexDigit (c : Char) : Bool := parseDigits.contains (upperHex c)

/-- A decimal digit. -/
def isDecimalDigit (c : Char) : Bool := (parseDigits.take 10).contains c

/-- Digits with `_` allowed between them (R70): each underscore has a digit on both sides (log 16). -/
def digitsGrouped : Bool → Text → Bool
  | afterDigit, [] => afterDigit
  | afterDigit, c :: t =>
    if c = '_' then afterDigit && digitsGrouped false t else isHexDigit c && digitsGrouped true t

/-- One to eight hex digits, `_` allowed between digits (R70). -/
def readHex (t : Text) : Option Word :=
  let ds := (t.filter (fun c => c != '_')).map upperHex
  if digitsGrouped false t && decide (ds.length ≤ 8) then some (BitVec.ofNat 32 (hexNumber ds)) else none

/-- An unsigned decimal below 2^32 (R70). -/
def readDecimal (t : Text) : Option Word :=
  let n := t.foldl (fun n c => n * 10 + digitValue c) 0
  if t ≠ [] ∧ t.all isDecimalDigit ∧ n < 2 ^ 32 then some (BitVec.ofNat 32 n) else none

/-- `num` (R70): `$` or `0x` and hex digits, or an unsigned decimal. -/
def readNum (t : Text) : Option Word :=
  if t.take 1 = ['$'] then readHex (t.drop 1)
  else if t.take 2 = ['0', 'x'] then readHex (t.drop 2)
  else readDecimal t

/-- `reg` (R70): one of the 16 names of R150. -/
def readReg (t : Text) : Option Reg :=
  ([.D, .A].flatMap fun f => (List.finRange 8).map fun i => Reg.mk f i).find? (fun r => regName r == t)

/-- `flag` (R70): `none`, `hash`, `0x` or `dollar`. -/
def readFlag (t : Text) : Option HexFlag :=
  if t = "none".toList then some .none
  else if t = "hash".toList then some .hash
  else if t = "0x".toList then some .zeroX
  else if t = "dollar".toList then some .dollar
  else none

/-! ## Lines -/

/-- The double quote. -/
def quoteChar : Char := Char.ofNat 34

/-- The backslash. -/
def backslashChar : Char := Char.ofNat 92

/-- An operand as written: a text in quotes, or any other run of characters. -/
inductive Token where
  | bare (t : Text)
  | quoted (t : Text)
deriving DecidableEq, Repr

/-- The rest of a text operand after its opening quote (R70): `escaped` after a backslash, `acc` the characters read so
far, last first; answers the text and what follows the closing quote. A backslash before another character, or no
closing quote, is refused (log 16). -/
def readQuoted : Bool → Text → Text → Option (Text × Text)
  | _, _, [] => none
  | escaped, acc, c :: t =>
    if escaped then
      (if c = quoteChar ∨ c = backslashChar then readQuoted false (c :: acc) t else none)
    else if c = quoteChar then some (acc.reverse, t)
    else if c = backslashChar then readQuoted true acc t
    else readQuoted false (c :: acc) t

/-- Blanks between the parts of a line carry no meaning (log 16). -/
def skipBlanks (t : Text) : Text := t.dropWhile (fun c => c == ' ')

/-- The first operand of a text that is not empty, and what follows it. -/
def readOperand : Text → Option (Token × Text)
  | [] => none
  | c :: t =>
    if c = quoteChar then (readQuoted false [] t).map fun (x, r) => (.quoted x, r)
    else
      let w := (c :: t).takeWhile (fun d => d != ',' && d != ' ')
      if w = [] then none else some (.bare w, (c :: t).drop w.length)

/-- Operands separated by commas (R70), at most `fuel` of them. -/
def readOperands : Nat → Text → Option (List Token)
  | 0, _ => none
  | fuel + 1, t =>
    match readOperand (skipBlanks t) with
    | none => none
    | some (tok, r) =>
      match skipBlanks r with
      | [] => some [tok]
      | c :: r' => if c = ',' then (readOperands fuel r').map (tok :: ·) else none

/-- The spelling of a mnemonic (R66, R70). -/
def Mnemonic.spelling : Mnemonic → String
  | .RDREG => "RDREG"
  | .WRREG => "WRREG"
  | .RDFLG => "RDFLG"
  | .WRFLG => "WRFLG"
  | .LDB => "LDB"
  | .STB => "STB"
  | .LDH => "LDH"
  | .STH => "STH"
  | .LDW => "LDW"
  | .STW => "STW"
  | .LDBX => "LDBX"
  | .TOSIGNED => "TOSIGNED"
  | .TOUNSIGNED => "TOUNSIGNED"
  | .BYTES => "BYTES"
  | .SHORTS => "SHORTS"
  | .ISZERO => "ISZERO"
  | .ISEVEN => "ISEVEN"
  | .SIGNBIT => "SIGNBIT"
  | .ONESC => "ONESC"
  | .TWOSC => "TWOSC"
  | .PARITY => "PARITY"
  | .HEXSTR => "HEXSTR"
  | .PARSE => "PARSE"
  | .SETTXT => "SETTXT"
  | .NAME => "NAME"
  | .VALSTR => "VALSTR"

/-- What an assembled line stands for: one request, or a pseudo-operation the host expands (R71). -/
inductive AsmLine where
  | request (q : Request)
  | pseudo (p : Pseudo)
deriving DecidableEq, Repr

/-- The operands a command takes and the fields and ports they fill (R70). -/
def assembleCommand (m : Mnemonic) (toks : List Token) : Option Request :=
  match m with
  | .RDFLG =>
    match toks with
    | [] => some (command .rdflg 0 0 0 [])
    | _ => none
  | .RDREG | .NAME | .VALSTR =>
    match toks with
    | [.bare r] => (readReg r).map fun r => command (m.build r .none) 0 0 0 []
    | _ => none
  | .WRREG =>
    match toks with
    | [.bare r, .bare v] =>
      (readReg r).bind fun r => (readNum v).map fun v => command (.wrreg r) 0 v 0 []
    | _ => none
  | .LDB | .LDH | .LDW =>
    match toks with
    | [.bare a] => (readNum a).map fun a => command (m.build ⟨.D, 0⟩ .none) a 0 0 []
    | _ => none
  | .STB | .STH | .STW =>
    match toks with
    | [.bare a, .bare v] =>
      (readNum a).bind fun a => (readNum v).map fun v => command (m.build ⟨.D, 0⟩ .none) a v 0 []
    | _ => none
  | .LDBX =>
    match toks with
    | [.bare b, .bare i, .bare o] =>
      (readNum b).bind fun b => (readNum i).bind fun i => (readNum o).map fun o => command .ldbx b i o []
    | _ => none
  | .WRFLG | .TOSIGNED | .TOUNSIGNED | .BYTES | .SHORTS | .ISZERO | .ISEVEN | .SIGNBIT | .ONESC | .TWOSC
  | .PARITY =>
    match toks with
    | [.bare v] => (readNum v).map fun v => command (m.build ⟨.D, 0⟩ .none) 0 v 0 []
    | _ => none
  | .HEXSTR =>
    match toks with
    | [.bare h, .bare v] =>
      (readFlag h).bind fun h => (readNum v).map fun v => command (.hexstr h) 0 v 0 []
    | _ => none
  | .PARSE =>
    match toks with
    | [.quoted t] => some (command .parse 0 0 0 t)
    | _ => none
  | .SETTXT =>
    match toks with
    | [.bare r, .quoted t] => (readReg r).map fun r => command (.settxt r) 0 0 0 t
    | _ => none

/-- The pseudo-operations and their operands (R71). -/
def assemblePseudo (name : Text) (toks : List Token) : Option Pseudo :=
  if name = "LTZ".toList then
    match toks with
    | [.bare v] => (readNum v).map .ltz
    | _ => none
  else if name = "CLR".toList then
    match toks with
    | [.bare r] => (readReg r).map .clr
    | _ => none
  else if name = "CLRFLG".toList then
    match toks with
    | [] => some .clrflg
    | _ => none
  else if name = "MOV".toList then
    match toks with
    | [.bare d, .bare r] => (readReg d).bind fun d => (readReg r).map fun r => .mov d r
    | _ => none
  else if name = "NEGREG".toList then
    match toks with
    | [.bare r] => (readReg r).map .negreg
    | _ => none
  else none

/-- A line of assembly: a mnemonic, then its operands separated by commas (R70), or a pseudo-operation (R71). -/
def assemble (line : Text) : Option AsmLine :=
  let t := skipBlanks line
  let name := t.takeWhile (fun c => c != ' ')
  let rest := skipBlanks (t.drop name.length)
  let toks := if rest = [] then some [] else readOperands (rest.length + 1) rest
  toks.bind fun toks =>
    match Mnemonic.all.find? (fun m => (Mnemonic.spelling m).toList == name) with
    | some m => (assembleCommand m toks).map .request
    | none => (assemblePseudo name toks).map .pseudo

end Sys2Proof.Machine
end

