-- ==== Sys2Proof/Safety.lean ====
section
/-! DEFINITION. The terms the claims use: the invariant of a state, the shape of a response, the groups of commands,
and the plain mathematical readings the results are compared with. -/

namespace Sys2Proof.Machine

/-! ## The invariant -/

/-- What every response is (R64, R161, R162, R165): never AlignmentError, nothing on the result ports of an error, an
address on FA only with AccessError, and then one outside the memory. -/
def Response.wellShaped (size : Nat) (r : Response) : Prop :=
  r.st ≠ .alignmentError ∧
  (r.st ≠ .ok → r.rd = 0 ∧ r.sg = false ∧ r.rb = false ∧ r.rt = []) ∧
  (r.st ≠ .accessError → r.fa = 0) ∧
  (r.st = .accessError → size ≤ r.fa.toNat)

/-- The invariant: the memory is in canonical form and lists no address outside `MEM_SIZE` (R30), and every response
given is well shaped. -/
def State.Inv (s : State) : Prop :=
  Memory.wf s.mem = true ∧
  (∀ c ∈ s.mem, c.1 < s.memSize.val) ∧
  (∀ r ∈ s.responses, r.wellShaped s.memSize.val)

/-! ## Groups of commands -/

/-- The operations of 41_value_ops.md. -/
def valueOps : List Instr :=
  [.tosigned, .tounsigned, .bytes, .shorts, .iszero, .iseven, .signbit, .onesc, .twosc, .parity]

/-- The memory reads of 42_memory_access.md. -/
def loadOps : List Instr := [.ldb, .ldh, .ldw, .ldbx]

/-- The memory writes of 42_memory_access.md. -/
def storeOps : List Instr := [.stb, .sth, .stw]

/-- How many bytes a store writes (R48). -/
def storeWidth : Instr → Nat
  | .stb => 1
  | .sth => 2
  | .stw => 4
  | _ => 0

/-! ## Results -/

/-- The ports an OK response of a kind leaves at 0 or empty (R64). -/
def Response.ofKind (r : Response) : ResultKind → Prop
  | .W32 | .B4 | .H2 => r.sg = false ∧ r.rb = false ∧ r.rt = []
  | .I32 => r.sg = true ∧ r.rb = false ∧ r.rt = []
  | .BOOL => r.rd = 0 ∧ r.sg = false ∧ r.rt = []
  | .TXT => r.rd = 0 ∧ r.sg = false ∧ r.rb = false
  | .none => r.rd = 0 ∧ r.sg = false ∧ r.rb = false ∧ r.rt = []

/-- Two requests carry the same on the ports of a list (R63). -/
def Request.agreeOn (ps : List Port) (q q' : Request) : Prop :=
  (.P0 ∈ ps → q.p0 = q'.p0) ∧ (.P1 ∈ ps → q.p1 = q'.p1) ∧ (.P2 ∈ ps → q.p2 = q'.p2) ∧
  (.T ∈ ps → q.text = q'.text)

/-- The number of set bits of a value (R89). -/
def popCount (v : Word) : Nat := ((List.range 32).filter fun k => v.getLsbD k).length

/-- Bits `[31-4k : 28-4k]` of a value: its k-th group of four, from the most significant (R138, R148). -/
def nibble (v : Word) (k : Nat) : Nat := (v.extractLsb' (28 - 4 * k) 4).toNat

/-- The sum of `digit(ds[k])·16^(length-1-k)` (R143). -/
def hexSum : Text → Nat
  | [] => 0
  | c :: ds => digitValue c * 16 ^ ds.length + hexSum ds

/-! ## Exchanging the two register files (R23, R124) -/

/-- The other file. -/
def swapFile : RegFile → RegFile
  | .D => .A
  | .A => .D

/-- The register of the same index in the other file. -/
def swapReg (r : Reg) : Reg := ⟨swapFile r.file, r.index⟩

/-- The command with its register operand in the other file. -/
def swapInstr : Instr → Instr
  | .rdreg r => .rdreg (swapReg r)
  | .wrreg r => .wrreg (swapReg r)
  | .settxt r => .settxt (swapReg r)
  | .name r => .name (swapReg r)
  | .valstr r => .valstr (swapReg r)
  | i => i

/-- The state with the contents of the two files exchanged. -/
def State.swapFiles (s : State) : State := { s with dregs := s.aregs, aregs := s.dregs }

end Sys2Proof.Machine
end

