-- ==== Sys2Proof/Certificates/Slice0/Obligations.lean ====
section
/-! DEFINITION. The statements for the provers. Each one's docstring names the rules of spec/ it formalises. -/

open Sys2Proof Sys2Proof.Machine

/-! ## Encoding -/

/-- R72: the worked encodings. Each line assembles to its CMD and ports, each CMD decodes to its command, and the last
two words are illegal for the reason given. -/
def Obligations.WorkedCommandEncodings : Prop :=
  (∃ q, assemble "RDREG D0".toList = some (.request q) ∧ q.cmd = 0x01000000 ∧
    decode q.cmd = .ok (.rdreg ⟨.D, 0⟩)) ∧
  (∃ q, assemble "WRREG A3, $00001000".toList = some (.request q) ∧ q.cmd = 0x02B00000 ∧ q.p1 = 0x00001000 ∧
    decode q.cmd = .ok (.wrreg ⟨.A, 3⟩)) ∧
  (∃ q, assemble "WRREG D7, $FFFFFFFF".toList = some (.request q) ∧ q.cmd = 0x02700000 ∧ q.p1 = 0xFFFFFFFF ∧
    decode q.cmd = .ok (.wrreg ⟨.D, 7⟩)) ∧
  (∃ q, assemble "STW $0, $DEADBEEF".toList = some (.request q) ∧ q.cmd = 0x15000000 ∧ q.p0 = 0x00000000 ∧
    q.p1 = 0xDEADBEEF ∧ decode q.cmd = .ok .stw) ∧
  (∃ q, assemble "HEXSTR dollar, $E1139C89".toList = some (.request q) ∧ q.cmd = 0x300C0000 ∧ q.p1 = 0xE1139C89 ∧
    decode q.cmd = .ok (.hexstr .dollar)) ∧
  (∃ q, assemble "SETTXT A7, \"$E113_9C89\"".toList = some (.request q) ∧ q.cmd = 0x32F00000 ∧
    q.text = "$E113_9C89".toList ∧ decode q.cmd = .ok (.settxt ⟨.A, 7⟩)) ∧
  decode 0x01000001 = .error .unusedFieldNotZero ∧
  decode 0x03800000 = .error .unusedFieldNotZero

/-- R61, R62, R66: no bit of an encoding is dropped. Every command decodes from its own word. -/
def Obligations.DecodeOfEncodeIsTheCommand : Prop :=
  ∀ i : Instr, i.wellFormed = true → decode (encode i) = .ok i

/-- R69: every legal word is the one word of its command. -/
def Obligations.EncodeOfDecodeIsTheWord : Prop :=
  ∀ (w : Word) (i : Instr), decode w = .ok i → encode i = w

/-- R67: a word is legal when its OP is in the table and every field its format does not use is zero; any other word is
answered IllegalCommand and changes no state. The illegal word's other ports are not read: the response is the same
whatever they hold. -/
def Obligations.LegalWordsDecodeAndOthersAreIllegal : Prop :=
  (∀ w : Word, (∃ i, decode w = .ok i) ↔ (Fields.ofWord w).wellFormed = true) ∧
  (∀ (s : State) (q : Request) (rest : List Request), s.script = q :: rest →
    (Fields.ofWord q.cmd).wellFormed = false →
    step s = .next { s with
      req := q, script := rest, responses := s.responses ++ [⟨.illegalCommand, 0, 0, false, false, []⟩] })

/-- R68: an OP that is not in R66 is illegal, 0x00 among them, and so is any word whose Z field is not zero. The OPs
are written out here from R66. -/
def Obligations.ReservedOpcodesAndReservedFieldAreIllegal : Prop :=
  (∀ w : Word,
    w.extractLsb' 24 8 ∉ ([0x01, 0x02, 0x03, 0x04, 0x10, 0x11, 0x12, 0x13, 0x14, 0x15, 0x16, 0x20, 0x21, 0x22, 0x23,
      0x24, 0x25, 0x26, 0x27, 0x28, 0x29, 0x30, 0x31, 0x32, 0x33, 0x34] : List (BitVec 8)) →
    decode w = .error .reservedOpcode) ∧
  (∀ (w : Word) (i : Instr), w.extractLsb' 0 18 ≠ 0 → decode w ≠ .ok i)

/-! ## The step -/

/-- R60, R67: a step serves the next request the host issues; with its ports in place it runs the decoded command. -/
def Obligations.StepRunsTheDecodedCommand : Prop :=
  ∀ (s : State) (q : Request) (rest : List Request) (i : Instr),
    s.script = q :: rest → decode q.cmd = .ok i → i.wellFormed = true →
    step s = exec i { s with req := q, script := rest }

/-- R181 and log 5 (the model's choice): with no request to serve, a step changes nothing. -/
def Obligations.StepWithoutARequestChangesNothing : Prop :=
  ∀ s : State, s.script = [] → step s = .next s

/-- R160: every request gets exactly one response, in order, and the next request is the following one. -/
def Obligations.EveryRequestGetsOneResponse : Prop :=
  ∀ (s : State) (q : Request) (rest : List Request), s.script = q :: rest →
    ∃ t r, step s = .next t ∧ t.responses = s.responses ++ [r] ∧ t.script = rest ∧ t.req = q

/-- R42 for the memory size, R7 for PARSE_OVERFLOW: no operation, and no step, changes either. That the state carries
them at all, and that the parse mode never changes, is the model's choice (log 2). -/
def Obligations.ConstructionParametersNeverChange : Prop :=
  (∀ (i : Instr) (s t : State), exec i s = .next t →
    t.memSize = s.memSize ∧ t.parseOverflow = s.parseOverflow) ∧
  (∀ s t : State, step s = .next t → t.memSize = s.memSize ∧ t.parseOverflow = s.parseOverflow)

/-- R186, R189: as many steps as the host has requests serve all of them, each with one response, and the invariant
holds at the end. -/
def Obligations.RunServesTheWholeScript : Prop :=
  ∀ s : State, s.Inv →
    ∃ t : State, Host.Core.run Sys2Proof.core s.script.length s = .next t ∧ t.script = [] ∧
      t.responses.length = s.responses.length + s.script.length ∧ t.Inv

/-! ## Reset and the invariant -/

/-- R180, R32: after construction every byte is 0x00, the flags are clear and each register holds REG_INIT, whatever
the three parameters are. -/
def Obligations.ConstructionState : Prop :=
  ∀ (n : MemSize) (init : RegFile → Fin 8 → Word) (o : ParseOverflow),
    (∀ a, Memory.read (State.construct n init o).mem a = 0) ∧
    (State.construct n init o).flags = 0 ∧
    (∀ r : Reg, (State.construct n init o).readReg r = init r.file r.index) ∧
    (State.construct n init o).memSize = n

/-- The invariant holds after construction, whatever the parameters, and at reset. -/
def Obligations.ConstructionMeetsTheInvariant : Prop :=
  (∀ (n : MemSize) (init : RegFile → Fin 8 → Word) (o : ParseOverflow), (State.construct n init o).Inv) ∧
  State.reset.Inv

/-- Every step keeps the invariant: the memory stays canonical and inside MEM_SIZE (R30, R47), and no response is
AlignmentError, carries a result with an error, or reports an address inside the memory (R64, R161, R162). -/
def Obligations.EveryStepKeepsTheInvariant : Prop :=
  ∀ s t : State, s.Inv → step s = .next t → t.Inv

/-! ## Value operations -/

/-- R80, R81: both views are the same bits. -/
def Obligations.DualViewKeepsTheBits : Prop :=
  (∀ s : State,
    exec .tosigned s = .next { s with responses := s.responses ++ [⟨.ok, 0, s.req.p1, true, false, []⟩] } ∧
    exec .tounsigned s = .next { s with responses := s.responses ++ [⟨.ok, 0, s.req.p1, false, false, []⟩] }) ∧
  (∀ v : Word, v.toInt = (v.toNat : Int) - 2 ^ 32 * (v.getLsbD 31).toNat) ∧
  encode .tosigned = 0x20000000 ∧ encode .tounsigned = 0x21000000

/-- R82, R83: BYTES and SHORTS answer the value itself on RD, whose lanes are its bytes and half-words, most
significant first. -/
def Obligations.BytesAndShortsAreTheLanes : Prop :=
  (∀ s : State,
    exec .bytes s = .next { s with responses := s.responses ++ [⟨.ok, 0, s.req.p1, false, false, []⟩] } ∧
    exec .shorts s = .next { s with responses := s.responses ++ [⟨.ok, 0, s.req.p1, false, false, []⟩] }) ∧
  (∀ v : Word,
    (v.extractLsb' 24 8 ++ v.extractLsb' 16 8 ++ v.extractLsb' 8 8 ++ v.extractLsb' 0 8 : BitVec 32) = v ∧
    (v.extractLsb' 16 16 ++ v.extractLsb' 0 16 : BitVec 32) = v ∧
    (List.finRange 4).map (Response.b4 ⟨.ok, 0, v, false, false, []⟩) =
      [v.extractLsb' 24 8, v.extractLsb' 16 8, v.extractLsb' 8 8, v.extractLsb' 0 8] ∧
    (List.finRange 2).map (Response.h2 ⟨.ok, 0, v, false, false, []⟩) =
      [v.extractLsb' 16 16, v.extractLsb' 0 16]) ∧
  encode .bytes = 0x22000000 ∧ encode .shorts = 0x23000000

/-- R84, R85, R86: ISZERO, ISEVEN and SIGNBIT answer on RB and set no flag; evenness is the same in both views, and the
sign bit says the signed view is negative. -/
def Obligations.PredicatesOfAValue : Prop :=
  (∀ s : State,
    exec .iszero s =
      .next { s with responses := s.responses ++ [⟨.ok, 0, 0, false, decide (s.req.p1 = 0), []⟩] } ∧
    exec .iseven s =
      .next { s with responses := s.responses ++ [⟨.ok, 0, 0, false, decide (s.req.p1.toNat % 2 = 0), []⟩] } ∧
    exec .signbit s =
      .next { s with responses := s.responses ++ [⟨.ok, 0, 0, false, decide (s.req.p1.toInt < 0), []⟩] }) ∧
  (∀ v : Word, (v.toNat % 2 = 0 ↔ v.toInt % 2 = 0) ∧ (v.toNat % 2 = 0 ↔ v.getLsbD 0 = false) ∧
    (v.toInt < 0 ↔ v.getLsbD 31 = true)) ∧
  encode .iszero = 0x24000000 ∧ encode .iseven = 0x25000000 ∧ encode .signbit = 0x26000000

/-- R87, R88: the complements, with their numbers in both views; negation wraps and sets no flag. -/
def Obligations.ComplementsOfAValue : Prop :=
  (∀ s : State,
    exec .onesc s = .next { s with responses := s.responses ++ [⟨.ok, 0, ~~~s.req.p1, false, false, []⟩] } ∧
    exec .twosc s = .next { s with responses := s.responses ++ [⟨.ok, 0, -s.req.p1, false, false, []⟩] }) ∧
  (∀ v : Word,
    ~~~v = v ^^^ 0xFFFFFFFF ∧ (~~~v).toInt = -v.toInt - 1 ∧
    -v = (v ^^^ 0xFFFFFFFF) + 1 ∧ (-v).toNat = (2 ^ 32 - v.toNat) % 2 ^ 32 ∧
    ((-v).toInt = -v.toInt ↔ v ≠ 0x80000000)) ∧
  encode .onesc = 0x27000000 ∧ encode .twosc = 0x28000000

/-- R89: PARITY answers true exactly when the number of set bits is even. -/
def Obligations.ParityIsEvenNumberOfSetBits : Prop :=
  (∀ s : State,
    exec .parity s =
      .next { s with responses := s.responses ++ [⟨.ok, 0, 0, false, decide (popCount s.req.p1 % 2 = 0), []⟩] }) ∧
  encode .parity = 0x29000000

/-- R90: a value operation reads only P1, changes no state, and its status is always OK. -/
def Obligations.ValueOperationsArePureFunctionsOfP1 : Prop :=
  ∀ i ∈ valueOps, ∀ v : Word, ∃ r : Response, r.st = .ok ∧
    ∀ s : State, s.req.p1 = v → exec i s = .next { s with responses := s.responses ++ [r] }

/-! ## Memory operations -/

/-- R100: LDB. -/
def Obligations.LoadByte : Prop :=
  (∀ s : State, s.req.p0.toNat < s.memSize.val →
    exec .ldb s = .next { s with
      responses := s.responses ++
        [⟨.ok, 0, (Memory.read s.mem s.req.p0.toNat).zeroExtend 32, false, false, []⟩] }) ∧
  (∀ s : State, s.memSize.val ≤ s.req.p0.toNat →
    ∃ fa : FaultAddress, fa.toNat = s.req.p0.toNat ∧
      exec .ldb s = .next { s with responses := s.responses ++ [⟨.accessError, fa, 0, false, false, []⟩] }) ∧
  encode .ldb = 0x10000000

/-- R102: LDH, at any address, the byte at the lower address on top; the first byte outside is reported. -/
def Obligations.LoadHalfWord : Prop :=
  (∀ s : State, s.req.p0.toNat + 1 < s.memSize.val →
    exec .ldh s = .next { s with
      responses := s.responses ++
        [⟨.ok, 0, (Memory.read s.mem s.req.p0.toNat ++ Memory.read s.mem (s.req.p0.toNat + 1)).zeroExtend 32,
          false, false, []⟩] }) ∧
  (∀ s : State, s.memSize.val ≤ s.req.p0.toNat →
    ∃ fa : FaultAddress, fa.toNat = s.req.p0.toNat ∧
      exec .ldh s = .next { s with responses := s.responses ++ [⟨.accessError, fa, 0, false, false, []⟩] }) ∧
  (∀ s : State, s.req.p0.toNat + 1 = s.memSize.val →
    ∃ fa : FaultAddress, fa.toNat = s.memSize.val ∧
      exec .ldh s = .next { s with responses := s.responses ++ [⟨.accessError, fa, 0, false, false, []⟩] }) ∧
  encode .ldh = 0x12000000

/-- R104: LDW, at any address, most significant byte first; the first byte outside is reported. -/
def Obligations.LoadWord : Prop :=
  (∀ s : State, s.req.p0.toNat + 3 < s.memSize.val →
    exec .ldw s = .next { s with
      responses := s.responses ++
        [⟨.ok, 0, (Memory.read s.mem s.req.p0.toNat ++ Memory.read s.mem (s.req.p0.toNat + 1) ++
            Memory.read s.mem (s.req.p0.toNat + 2) ++ Memory.read s.mem (s.req.p0.toNat + 3) : BitVec 32),
          false, false, []⟩] }) ∧
  (∀ s : State, s.memSize.val ≤ s.req.p0.toNat →
    ∃ fa : FaultAddress, fa.toNat = s.req.p0.toNat ∧
      exec .ldw s = .next { s with responses := s.responses ++ [⟨.accessError, fa, 0, false, false, []⟩] }) ∧
  (∀ s : State, s.req.p0.toNat < s.memSize.val → s.memSize.val ≤ s.req.p0.toNat + 3 →
    ∃ fa : FaultAddress, fa.toNat = s.memSize.val ∧
      exec .ldw s = .next { s with responses := s.responses ++ [⟨.accessError, fa, 0, false, false, []⟩] }) ∧
  encode .ldw = 0x14000000

/-- R106: LDBX reads the byte at the exact sum of its three operands, with no wrap, and reports that sum when it is
outside; with index and offset zero it is LDB. -/
def Obligations.LoadByteIndexed : Prop :=
  (∀ s : State, s.req.p0.toNat + s.req.p1.toNat + s.req.p2.toNat < s.memSize.val →
    exec .ldbx s = .next { s with
      responses := s.responses ++
        [⟨.ok, 0, (Memory.read s.mem (s.req.p0.toNat + s.req.p1.toNat + s.req.p2.toNat)).zeroExtend 32,
          false, false, []⟩] }) ∧
  (∀ s : State, s.memSize.val ≤ s.req.p0.toNat + s.req.p1.toNat + s.req.p2.toNat →
    ∃ fa : FaultAddress, fa.toNat = s.req.p0.toNat + s.req.p1.toNat + s.req.p2.toNat ∧
      exec .ldbx s = .next { s with responses := s.responses ++ [⟨.accessError, fa, 0, false, false, []⟩] }) ∧
  (∀ s : State, s.req.p1 = 0 → s.req.p2 = 0 → exec .ldbx s = exec .ldb s) ∧
  encode .ldbx = 0x16000000

/-- R101: STB overwrites exactly one byte with P1[7:0], or nothing. -/
def Obligations.StoreByte : Prop :=
  (∀ s : State, Memory.wf s.mem = true → s.req.p0.toNat < s.memSize.val →
    ∃ m : Memory,
      exec .stb s = .next { s with mem := m, responses := s.responses ++ [⟨.ok, 0, 0, false, false, []⟩] } ∧
      ∀ x, Memory.read m x =
        if x = s.req.p0.toNat then s.req.p1.extractLsb' 0 8 else Memory.read s.mem x) ∧
  (∀ s : State, s.memSize.val ≤ s.req.p0.toNat →
    ∃ fa : FaultAddress, fa.toNat = s.req.p0.toNat ∧
      exec .stb s = .next { s with responses := s.responses ++ [⟨.accessError, fa, 0, false, false, []⟩] }) ∧
  encode .stb = 0x11000000

/-- R103: STH writes P1[15:8] and P1[7:0] in this order, each checked by itself; at the last address of the memory its
first byte stays written. -/
def Obligations.StoreHalfWord : Prop :=
  (∀ s : State, Memory.wf s.mem = true → s.req.p0.toNat + 1 < s.memSize.val →
    ∃ m : Memory,
      exec .sth s = .next { s with mem := m, responses := s.responses ++ [⟨.ok, 0, 0, false, false, []⟩] } ∧
      ∀ x, Memory.read m x =
        if x = s.req.p0.toNat then s.req.p1.extractLsb' 8 8
        else if x = s.req.p0.toNat + 1 then s.req.p1.extractLsb' 0 8
        else Memory.read s.mem x) ∧
  (∀ s : State, s.memSize.val ≤ s.req.p0.toNat →
    ∃ fa : FaultAddress, fa.toNat = s.req.p0.toNat ∧
      exec .sth s = .next { s with responses := s.responses ++ [⟨.accessError, fa, 0, false, false, []⟩] }) ∧
  (∀ s : State, Memory.wf s.mem = true → s.req.p0.toNat + 1 = s.memSize.val →
    ∃ (fa : FaultAddress) (m : Memory), fa.toNat = s.memSize.val ∧
      exec .sth s =
        .next { s with mem := m, responses := s.responses ++ [⟨.accessError, fa, 0, false, false, []⟩] } ∧
      ∀ x, Memory.read m x =
        if x = s.req.p0.toNat then s.req.p1.extractLsb' 8 8 else Memory.read s.mem x) ∧
  encode .sth = 0x13000000

/-- R105: STW writes the four bytes of P1, most significant first, each checked by itself; a store that leaves the
memory keeps its bytes inside written. -/
def Obligations.StoreWord : Prop :=
  (∀ s : State, Memory.wf s.mem = true → s.req.p0.toNat + 3 < s.memSize.val →
    ∃ m : Memory,
      exec .stw s = .next { s with mem := m, responses := s.responses ++ [⟨.ok, 0, 0, false, false, []⟩] } ∧
      ∀ x, Memory.read m x =
        if x = s.req.p0.toNat then s.req.p1.extractLsb' 24 8
        else if x = s.req.p0.toNat + 1 then s.req.p1.extractLsb' 16 8
        else if x = s.req.p0.toNat + 2 then s.req.p1.extractLsb' 8 8
        else if x = s.req.p0.toNat + 3 then s.req.p1.extractLsb' 0 8
        else Memory.read s.mem x) ∧
  (∀ s : State, s.memSize.val ≤ s.req.p0.toNat →
    ∃ fa : FaultAddress, fa.toNat = s.req.p0.toNat ∧
      exec .stw s = .next { s with responses := s.responses ++ [⟨.accessError, fa, 0, false, false, []⟩] }) ∧
  (∀ s : State, Memory.wf s.mem = true → s.req.p0.toNat < s.memSize.val → s.memSize.val ≤ s.req.p0.toNat + 3 →
    ∃ (fa : FaultAddress) (m : Memory), fa.toNat = s.memSize.val ∧
      exec .stw s =
        .next { s with mem := m, responses := s.responses ++ [⟨.accessError, fa, 0, false, false, []⟩] } ∧
      ∀ x, Memory.read m x =
        if s.memSize.val ≤ x then Memory.read s.mem x
        else if x = s.req.p0.toNat then s.req.p1.extractLsb' 24 8
        else if x = s.req.p0.toNat + 1 then s.req.p1.extractLsb' 16 8
        else if x = s.req.p0.toNat + 2 then s.req.p1.extractLsb' 8 8
        else Memory.read s.mem x) ∧
  encode .stw = 0x15000000

/-- The frame of the stores (R101, R103, R105, R107): registers, flags, parameters, ports and the host's script are
unchanged, and so is every byte outside the bytes stored to, which start at the address operand and are as many as
the width; also when the store fails. -/
def Obligations.StoresFrame : Prop :=
  ∀ i ∈ storeOps, ∀ s t : State, Memory.wf s.mem = true → exec i s = .next t →
    t.dregs = s.dregs ∧ t.aregs = s.aregs ∧ t.flags = s.flags ∧ t.memSize = s.memSize ∧
    t.parseOverflow = s.parseOverflow ∧ t.req = s.req ∧ t.script = s.script ∧
    ∀ x, ¬ (s.req.address ≤ x ∧ x < s.req.address + storeWidth i) → Memory.read t.mem x = Memory.read s.mem x

/-- The frame of every command that stores nothing (R25, R27, R90, R107): every byte of memory reads as before; and
the ports, the script and the parameters are unchanged. -/
def Obligations.NonStoresLeaveEveryByte : Prop :=
  ∀ (i : Instr) (s t : State), i ∉ storeOps → exec i s = .next t →
    (∀ x, Memory.read t.mem x = Memory.read s.mem x) ∧ t.req = s.req ∧ t.script = s.script ∧
    t.memSize = s.memSize ∧ t.parseOverflow = s.parseOverflow

/-- R107: a memory operation reads only memory and its own ports and writes only memory bytes and its response, whose
status is OK or AccessError. Two states that differ elsewhere get the same response and the same bytes. -/
def Obligations.MemoryOperationsTouchOnlyMemory : Prop :=
  ∀ i ∈ loadOps ++ storeOps, ∀ s s' : State, s.memSize = s'.memSize → s.mem = s'.mem →
    s.req.agreeOn i.mnemonic.ports s'.req →
    ∃ (m : Memory) (r : Response), (r.st = .ok ∨ r.st = .accessError) ∧
      exec i s = .next { s with mem := m, responses := s.responses ++ [r] } ∧
      exec i s' = .next { s' with mem := m, responses := s'.responses ++ [r] }

/-- R44 (the document's §8 vector in R105): after a word is stored, the four bytes at its address read most significant
first. -/
def Obligations.StoredWordReadsBackByByte : Prop :=
  ∀ (s : State) (k : Fin 4), Memory.wf s.mem = true → s.req.p0.toNat + 3 < s.memSize.val →
    ∃ t u : State, exec .stw s = .next t ∧
      exec .ldb { t with req := { t.req with p0 := s.req.p0 + BitVec.ofNat 32 k.val } } = .next u ∧
      u.responses = t.responses ++
        [⟨.ok, 0, (s.req.p1.extractLsb' (24 - 8 * k.val) 8).zeroExtend 32, false, false, []⟩]

/-- R53, R185: a read of what was just written gives the written value: registers, flags, bytes, half-words (their low
16 bits, R103) and words (R104), whatever the ports of the reading request hold elsewhere. -/
def Obligations.ReadAfterWriteGivesTheValue : Prop :=
  (∀ (s : State) (r : Reg) (q : Request), ∃ t, exec (.wrreg r) s = .next t ∧
    exec (.rdreg r) { t with req := q } = .next { t with
      req := q, responses := t.responses ++ [⟨.ok, 0, s.req.p1, false, false, []⟩] }) ∧
  (∀ (s : State) (q : Request), ∃ t, exec .wrflg s = .next t ∧
    exec .rdflg { t with req := q } = .next { t with
      req := q, responses := t.responses ++ [⟨.ok, 0, (s.req.p1.extractLsb' 0 3).zeroExtend 32, false, false, []⟩] }) ∧
  (∀ (s : State) (q : Request), Memory.wf s.mem = true → s.req.p0.toNat < s.memSize.val → q.p0 = s.req.p0 →
    ∃ t, exec .stb s = .next t ∧
    exec .ldb { t with req := q } = .next { t with
      req := q, responses := t.responses ++ [⟨.ok, 0, (s.req.p1.extractLsb' 0 8).zeroExtend 32, false, false, []⟩] }) ∧
  (∀ (s : State) (q : Request), Memory.wf s.mem = true → s.req.p0.toNat + 1 < s.memSize.val → q.p0 = s.req.p0 →
    ∃ t, exec .sth s = .next t ∧
    exec .ldh { t with req := q } = .next { t with
      req := q, responses := t.responses ++ [⟨.ok, 0, (s.req.p1.extractLsb' 0 16).zeroExtend 32, false, false, []⟩] }) ∧
  (∀ (s : State) (q : Request), Memory.wf s.mem = true → s.req.p0.toNat + 3 < s.memSize.val → q.p0 = s.req.p0 →
    ∃ t, exec .stw s = .next t ∧
    exec .ldw { t with req := q } = .next { t with
      req := q, responses := t.responses ++ [⟨.ok, 0, s.req.p1, false, false, []⟩] })

/-- R50: writing the same value to the same address twice leaves the memory of one write, also when the store fails. -/
def Obligations.StoringTwiceIsStoringOnce : Prop :=
  ∀ i ∈ storeOps, ∀ s t u : State, Memory.wf s.mem = true → exec i s = .next t → exec i t = .next u →
    u.mem = t.mem

/-! ## Registers and flags -/

/-- R120: RDREG answers the register's value and changes nothing. A step whose command is neither WRREG nor SETTXT of a
register keeps that register, so after any number of steps from construction, over requests of which none writes it,
RDREG answers REG_INIT, whatever that is. -/
def Obligations.ReadRegister : Prop :=
  (∀ (s : State) (r : Reg),
    exec (.rdreg r) s =
      .next { s with responses := s.responses ++ [⟨.ok, 0, s.readReg r, false, false, []⟩] }) ∧
  (∀ (s t : State) (q : Request) (rest : List Request) (r : Reg), s.script = q :: rest →
    decode q.cmd ≠ .ok (.wrreg r) → decode q.cmd ≠ .ok (.settxt r) → step s = .next t →
    t.readReg r = s.readReg r) ∧
  (∀ (n : MemSize) (init : RegFile → Fin 8 → Word) (o : ParseOverflow) (r : Reg) (l : List Request) (k : Nat)
    (t : State),
    (∀ q ∈ l, decode q.cmd ≠ .ok (.wrreg r) ∧ decode q.cmd ≠ .ok (.settxt r)) →
    Host.Core.run Sys2Proof.core k { State.construct n init o with script := l } = .next t →
    exec (.rdreg r) t =
      .next { t with responses := t.responses ++ [⟨.ok, 0, init r.file r.index, false, false, []⟩] }) ∧
  (∀ (f : RegFile) (i : Fin 8), encode (.rdreg ⟨f, i⟩) =
    0x01000000 ||| (f.toBit.zeroExtend 32 <<< 23) ||| (BitVec.ofNat 32 i.val <<< 20))

/-- R121: WRREG writes the one register and nothing else; a register written with its own value changes nothing. -/
def Obligations.WriteRegister : Prop :=
  (∀ (s : State) (r : Reg), ∃ t, exec (.wrreg r) s = .next t ∧
    t.readReg r = s.req.p1 ∧ (∀ r', r' ≠ r → t.readReg r' = s.readReg r') ∧
    t = { s with
      dregs := t.dregs, aregs := t.aregs, responses := s.responses ++ [⟨.ok, 0, 0, false, false, []⟩] } ∧
    (s.req.p1 = s.readReg r → t.dregs = s.dregs ∧ t.aregs = s.aregs)) ∧
  (∀ (f : RegFile) (i : Fin 8), encode (.wrreg ⟨f, i⟩) =
    0x02000000 ||| (f.toBit.zeroExtend 32 <<< 23) ||| (BitVec.ofNat 32 i.val <<< 20))

/-- R122, R123: RDFLG answers Z on bit 0, C on bit 1, V on bit 2 and zero above; WRFLG sets the three flags from
P1[2:0], ignores P1[31:3] and writes nothing else. -/
def Obligations.ReadAndWriteFlags : Prop :=
  (∀ s : State, ∃ v : Word,
    exec .rdflg s = .next { s with responses := s.responses ++ [⟨.ok, 0, v, false, false, []⟩] } ∧
    v.getLsbD 0 = s.flagZ ∧ v.getLsbD 1 = s.flagC ∧ v.getLsbD 2 = s.flagV ∧ v.extractLsb' 3 29 = 0) ∧
  (∀ s : State, ∃ t, exec .wrflg s = .next t ∧
    t = { s with flags := t.flags, responses := s.responses ++ [⟨.ok, 0, 0, false, false, []⟩] } ∧
    t.flagZ = s.req.p1.getLsbD 0 ∧ t.flagC = s.req.p1.getLsbD 1 ∧ t.flagV = s.req.p1.getLsbD 2) ∧
  encode .rdflg = 0x03000000 ∧ encode .wrflg = 0x04000000

/-- R124: exchanging the two register files, in the command and in the state, exchanges them in the outcome and
changes no response, for every command but NAME; and the two names of an index differ in the letter alone. -/
def Obligations.TheTwoRegisterFilesBehaveAlike : Prop :=
  (∀ (i : Instr) (s t : State), (∀ r, i ≠ .name r) → exec i s = .next t →
    exec (swapInstr i) s.swapFiles = .next t.swapFiles) ∧
  (∀ (i : Fin 8) (s : State), ∃ digit : Char,
    exec (.name ⟨.D, i⟩) s =
      .next { s with responses := s.responses ++ [⟨.ok, 0, 0, false, false, ['D', digit]⟩] } ∧
    exec (.name ⟨.A, i⟩) s =
      .next { s with responses := s.responses ++ [⟨.ok, 0, 0, false, false, ['A', digit]⟩] })

/-! ## Text -/

/-- R136 to R139: HEXSTR answers the flag's text and then the digits of the eight groups of four bits, in lowercase. -/
def Obligations.HexStringIsEightLowercaseDigits : Prop :=
  (∀ (s : State) (h : HexFlag),
    exec (.hexstr h) s = .next { s with
      responses := s.responses ++ [⟨.ok, 0, 0, false, false,
        (match h with
          | .none => []
          | .hash => ['#']
          | .zeroX => ['0', 'x']
          | .dollar => ['$']) ++
        (List.range 8).map fun k => "0123456789abcdef".toList.getD (nibble s.req.p1 k) ' '⟩] }) ∧
  encode (.hexstr .none) = 0x30000000 ∧ encode (.hexstr .hash) = 0x30040000 ∧
  encode (.hexstr .zeroX) = 0x30080000 ∧ encode (.hexstr .dollar) = 0x300C0000

/-- R140 to R145: the hex digits have the values 0 to 15 in their order. A text is a prefix, a maximal run from the scan set and any ending. The prefix is `0x`, or a run of `#` and `$`
on a text that does not begin with `0x`. The ending does not begin with a character of the run's set (nor, after an
empty run, with a prefix character). No digit: failure. Otherwise the base-16 sum of the digits, the underscores left
out; of 2^32 or more, failure or the sum modulo 2^32. -/
def Obligations.ParseReadsPrefixRunAndEnding : Prop :=
  (∀ k < 16, digitValue ("0123456789ABCDEF".toList.getD k ' ') = k) ∧
  ∀ (o : ParseOverflow) (pfx run ending : Text),
    (pfx = ['0', 'x'] ∨ (∀ c ∈ pfx, c = '#' ∨ c = '$') ∧ (pfx ++ run ++ ending).take 2 ≠ ['0', 'x']) →
    (∀ c ∈ run, c ∈ "0123456789ABCDEF_".toList) →
    (∀ c ∈ ending.head?, c ∉ "0123456789ABCDEF_".toList ∧ (run = [] → pfx ≠ ['0', 'x'] → c ≠ '#' ∧ c ≠ '$')) →
    let ds := run.filter (fun c => c != '_')
    (ds = [] → parseText o (pfx ++ run ++ ending) = none) ∧
    (ds ≠ [] → hexSum ds < 2 ^ 32 → parseText o (pfx ++ run ++ ending) = some (BitVec.ofNat 32 (hexSum ds))) ∧
    (ds ≠ [] → 2 ^ 32 ≤ hexSum ds →
      parseText .fail (pfx ++ run ++ ending) = none ∧
      parseText .wrap (pfx ++ run ++ ending) = some (BitVec.ofNat 32 (hexSum ds % 2 ^ 32)))

/-- R147: PARSE answers the value of the text, or ParseFailure; no state changes in any case. -/
def Obligations.ParseCommand : Prop :=
  (∀ (s : State) (v : Word), parseText s.parseOverflow s.req.text = some v →
    exec .parse s = .next { s with responses := s.responses ++ [⟨.ok, 0, v, false, false, []⟩] }) ∧
  (∀ s : State, parseText s.parseOverflow s.req.text = none →
    exec .parse s = .next { s with responses := s.responses ++ [⟨.parseFailure, 0, 0, false, false, []⟩] }) ∧
  encode .parse = 0x31000000

/-- R149: SETTXT writes the value of the text and answers true, or writes zero and answers false; it writes no other
register and raises no error. -/
def Obligations.SetRegisterFromText : Prop :=
  (∀ (s : State) (r : Reg), ∃ t b, exec (.settxt r) s = .next t ∧
    t.readReg r = (parseText s.parseOverflow s.req.text).getD 0 ∧
    b = (parseText s.parseOverflow s.req.text).isSome ∧
    (∀ r', r' ≠ r → t.readReg r' = s.readReg r') ∧
    t = { s with
      dregs := t.dregs, aregs := t.aregs, responses := s.responses ++ [⟨.ok, 0, 0, false, b, []⟩] }) ∧
  (∀ (f : RegFile) (i : Fin 8), encode (.settxt ⟨f, i⟩) =
    0x32000000 ||| (f.toBit.zeroExtend 32 <<< 23) ||| (BitVec.ofNat 32 i.val <<< 20))

/-- R150: NAME answers the letter of the file and the index in decimal, whatever the register holds; the 16 names are
all different. -/
def Obligations.RegisterNames : Prop :=
  (∀ (s : State) (i : Fin 8),
    exec (.name ⟨.D, i⟩) s = .next { s with
      responses := s.responses ++ [⟨.ok, 0, 0, false, false, 'D' :: (toString i.val).toList⟩] } ∧
    exec (.name ⟨.A, i⟩) s = .next { s with
      responses := s.responses ++ [⟨.ok, 0, 0, false, false, 'A' :: (toString i.val).toList⟩] }) ∧
  (∀ r r' : Reg, regName r = regName r' → r = r') ∧
  (∀ (f : RegFile) (i : Fin 8), encode (.name ⟨f, i⟩) =
    0x33000000 ||| (f.toBit.zeroExtend 32 <<< 23) ||| (BitVec.ofNat 32 i.val <<< 20))

/-- R151: VALSTR answers the register's value as `#` and eight lowercase digits. -/
def Obligations.RegisterValueAsText : Prop :=
  (∀ (s : State) (r : Reg),
    exec (.valstr r) s = .next { s with
      responses := s.responses ++ [⟨.ok, 0, 0, false, false, hexString (s.readReg r) .hash⟩] } ∧
    (hexString (s.readReg r) .hash).length = 9) ∧
  (∀ (f : RegFile) (i : Fin 8), encode (.valstr ⟨f, i⟩) =
    0x34000000 ||| (f.toBit.zeroExtend 32 <<< 23) ||| (BitVec.ofNat 32 i.val <<< 20))

/-- R148: the round trip through text. Parsing the formatted value gives it back exactly when every group of four bits
is at most 9. Otherwise, with k the first group of 10 or more, parsing fails for k = 0 and gives the groups before k
otherwise. For every HexFlag, the `0x` form among them, and both overflow modes. -/
def Obligations.TextRoundTripHoldsExactlyForDecimalDigits : Prop :=
  ∀ (o : ParseOverflow) (v : Word) (h : HexFlag),
    (parseText o (hexString v h) = some v ↔ ∀ k < 8, nibble v k ≤ 9) ∧
    (∀ k < 8, 10 ≤ nibble v k → (∀ j < k, nibble v j ≤ 9) →
      parseText o (hexString v h) = if k = 0 then none else some (v >>> (4 * (8 - k))))

/-! ## Rules of the whole machine -/

/-- R27: only WRFLG writes the flags and only RDFLG reads them: any other command does the same whatever they are. -/
def Obligations.OnlyWrflgWritesAndOnlyRdflgReadsTheFlags : Prop :=
  (∀ (i : Instr) (s t : State), i ≠ .wrflg → exec i s = .next t → t.flags = s.flags) ∧
  (∀ (i : Instr) (s t : State) (f : BitVec 3), i ≠ .rdflg → i ≠ .wrflg → exec i s = .next t →
    exec i { s with flags := f } = .next { t with flags := f }) ∧
  (∀ (s t : State) (f : BitVec 3), exec .wrflg s = .next t → exec .wrflg { s with flags := f } = .next t)

/-- R25: only WRREG and SETTXT write a register, and only RDREG and VALSTR read one: any other command does the same
whatever the registers hold. -/
def Obligations.OnlyRegisterCommandsTouchRegisters : Prop :=
  (∀ (i : Instr) (s t : State), (∀ r, i ≠ .wrreg r) → (∀ r, i ≠ .settxt r) → exec i s = .next t →
    ∀ r, t.readReg r = s.readReg r) ∧
  (∀ (i : Instr) (s t : State) (d a : Vector Word 8),
    (∀ r, i ≠ .rdreg r) → (∀ r, i ≠ .valstr r) → (∀ r, i ≠ .wrreg r) → (∀ r, i ≠ .settxt r) →
    exec i s = .next t → exec i { s with dregs := d, aregs := a } = .next { t with dregs := d, aregs := a }) ∧
  (∀ (i : Instr) (s t : State) (d a : Vector Word 8) (r : Reg), i = .wrreg r ∨ i = .settxt r → exec i s = .next t →
    ∃ u, exec i { s with dregs := d, aregs := a } = .next u ∧ u.responses = t.responses ∧ u.readReg r = t.readReg r)

/-- R162, R163, R164: which request gets which error. AlignmentError is never produced. ParseFailure comes from PARSE
alone, exactly when parsing fails. IllegalCommand comes from the decoder alone, exactly when the word is illegal.
Neither records an address. -/
def Obligations.ErrorsAndTheirOnlyCauses : Prop :=
  (∀ (s t : State) (q : Request) (rest : List Request) (r : Response), s.script = q :: rest → step s = .next t →
    t.responses = s.responses ++ [r] →
    r.st ≠ .alignmentError ∧
    (r.st = .parseFailure ↔ decode q.cmd = .ok .parse ∧ parseText s.parseOverflow q.text = none) ∧
    (r.st = .illegalCommand ↔ ∀ i, decode q.cmd ≠ .ok i) ∧
    (r.st = .accessError → ∃ i ∈ loadOps ++ storeOps, decode q.cmd = .ok i) ∧
    (r.st ≠ .accessError → r.fa = 0)) ∧
  Status.code .ok = 0 ∧ Status.code .accessError = 1 ∧ Status.code .alignmentError = 2 ∧
  Status.code .parseFailure = 3 ∧ Status.code .illegalCommand = 4

/-- R166: an error changes only what its operation's rule says. After IllegalCommand, ParseFailure or a failing read the
state is as before; after a failing store only bytes from its address up to the end of memory may differ. -/
def Obligations.ErrorsChangeOnlyAStoresBytes : Prop :=
  ∀ (s t : State) (q : Request) (rest : List Request) (r : Response), s.Inv → s.script = q :: rest →
    step s = .next t → t.responses = s.responses ++ [r] → r.st ≠ .ok →
    t = { s with mem := t.mem, req := q, script := rest, responses := s.responses ++ [r] } ∧
    ((∀ i ∈ storeOps, decode q.cmd ≠ .ok i) → t.mem = s.mem) ∧
    (∀ x, ¬ (q.p0.toNat ≤ x ∧ x < s.memSize.val) → Memory.read t.mem x = Memory.read s.mem x)

/-- R64: an OK response shows a result of the kind the opcode table gives the command, and nothing on the other ports. -/
def Obligations.ResultsHaveTheKindOfTheTable : Prop :=
  ∀ (i : Instr) (s t : State) (r : Response), exec i s = .next t → t.responses = s.responses ++ [r] → r.st = .ok →
    r.fa = 0 ∧ r.ofKind i.mnemonic.kind

/-- R63: the block ignores a port the operation does not use: two requests that agree on the ports the table says the
command reads give the same state and the same response. -/
def Obligations.UnusedPortsAreIgnored : Prop :=
  ∀ (i : Instr) (s : State) (q q' : Request), q.agreeOn i.mnemonic.ports q' →
    ∃ t : State, exec i { s with req := q } = .next { t with req := q } ∧
      exec i { s with req := q' } = .next { t with req := q' }

/-! ## The host's tools -/

/-- R71: the aliases and pseudo-operations. That their commands go ahead of the host's script, which is then as before, is
the model's choice (log 19). -/
def Obligations.PseudoOperationsDoWhatTheyExpandTo : Prop :=
  (∀ (s : State) (v : Word), ∃ t, runPseudo (.ltz v) s = .next t ∧ t.script = s.script ∧
    t.mem = s.mem ∧ t.flags = s.flags ∧ t.dregs = s.dregs ∧ t.aregs = s.aregs ∧
    t.responses = s.responses ++ [⟨.ok, 0, 0, false, decide (v.toInt < 0), []⟩]) ∧
  (∀ (s : State) (r : Reg), ∃ t, runPseudo (.clr r) s = .next t ∧ t.script = s.script ∧ t.readReg r = 0 ∧
    (∀ r', r' ≠ r → t.readReg r' = s.readReg r') ∧ t.mem = s.mem ∧ t.flags = s.flags ∧
    t.responses.length = s.responses.length + 1) ∧
  (∀ s : State, ∃ t, runPseudo .clrflg s = .next t ∧ t.script = s.script ∧ t.flags = 0 ∧ t.mem = s.mem ∧
    t.dregs = s.dregs ∧ t.aregs = s.aregs ∧ t.responses.length = s.responses.length + 1) ∧
  (∀ (s : State) (rd rs : Reg), ∃ t, runPseudo (.mov rd rs) s = .next t ∧ t.script = s.script ∧
    t.readReg rd = s.readReg rs ∧ (∀ r', r' ≠ rd → t.readReg r' = s.readReg r') ∧ t.mem = s.mem ∧
    t.flags = s.flags ∧ t.responses.length = s.responses.length + 2) ∧
  (∀ (s : State) (r : Reg), ∃ t, runPseudo (.negreg r) s = .next t ∧ t.script = s.script ∧
    t.readReg r = -s.readReg r ∧ (∀ r', r' ≠ r → t.readReg r' = s.readReg r') ∧ t.mem = s.mem ∧
    t.flags = s.flags ∧ t.responses.length = s.responses.length + 3)

/-- R70 beside R146: the assembler's own literal reader takes hex digits in either case, so it reads back every value
that HEXSTR formats with `$` or `0x`, which the block's PARSE does not (R148). -/
def Obligations.AssemblerReadsEveryFormattedValue : Prop :=
  ∀ v : Word, readNum (hexString v .dollar) = some v ∧ readNum (hexString v .zeroX) = some v

/-- R70: a line fills the fields and ports of its command. For every register and every number, RDREG and WRREG lines
assemble to the request with that register and that number on P1; the ports a command does not read hold zero and the
empty text, which is the model's choice (log 16). -/
def Obligations.AssemblerFillsRegisterAndNumber : Prop :=
  (∀ r : Reg, assemble ("RDREG ".toList ++ regName r) = some (.request (command (.rdreg r) 0 0 0 []))) ∧
  (∀ (r : Reg) (v : Word), assemble ("WRREG ".toList ++ regName r ++ ", ".toList ++ hexString v .dollar) =
    some (.request (command (.wrreg r) 0 v 0 [])))

/-! ## The block with its parameters as arguments -/

/-- R7, R20, R21, R31, R60: a step is the block serving the request. The new state of the block and the response are the
operation's answer to the construction parameters, the request and the four parts of the block's state, and nothing
else goes in or comes out. -/
def Obligations.StepIsTheBlockServingTheRequest : Prop :=
  ∀ (s : State) (q : Request) (rest : List Request), s.script = q :: rest →
    ∃ (b : Block) (r : Response), serveRequest ⟨s.memSize, s.parseOverflow⟩ q ⟨s.mem, s.dregs, s.aregs, s.flags⟩ = (b, r) ∧
      step s = .next { s with
        mem := b.mem, dregs := b.dregs, aregs := b.aregs, flags := b.flags, req := q, script := rest,
        responses := s.responses ++ [r] }

/-- R186, R189: what a run leaves behind is what the block does with the host's requests in their order: its state after
the last one, and the responses. -/
def Obligations.RunLeavesTheBlocksStateAndResponses : Prop :=
  ∀ s : State, ∃ t : State, Host.Core.run Sys2Proof.core s.script.length s = .next t ∧
    (t.toBlock, t.responses.drop s.responses.length) = serveAll s.toParams s.script s.toBlock ∧
    t.responses.take s.responses.length = s.responses ∧ t.toParams = s.toParams

/-- The reset state is a construction in which the three parameters are Config's constants with no body: the model's
choice (log 2, log 3). No request has been issued and no response given. -/
def Obligations.ResetIsAConstructionWithOpenParameters : Prop :=
  State.reset = State.construct Config.memSize Config.regInit Config.parseOverflow ∧
  State.reset.script = [] ∧ State.reset.responses = []
end

