-- ==== Sys2Proof/Laws/Memory.lean ====
section
/-! SUPPORT. The laws of memory: a read after a write, the canonical form, equal contents are equal data, and what the
access primitives of R46 and R47 do. -/

namespace Sys2Proof.Machine

/-! ## The canonical form -/

theorem Memory.wfFrom_cons {lo k : Nat} {v : Byte} {m : Memory} :
    Memory.wfFrom lo ((k, v) :: m) = true ↔ lo ≤ k ∧ v ≠ 0 ∧ Memory.wfFrom (k + 1) m = true := by
  simp [Memory.wfFrom, and_assoc]

theorem Memory.wfFrom_mono {lo lo' : Nat} {m : Memory} (h : Memory.wfFrom lo m = true) (hle : lo' ≤ lo) :
    Memory.wfFrom lo' m = true := by
  cases m with
  | nil => rfl
  | cons c m =>
    obtain ⟨k, v⟩ := c
    rw [Memory.wfFrom_cons] at h ⊢
    exact ⟨by omega, h.2⟩

/-- Below the first listed address every byte is zero. -/
theorem Memory.read_below {lo : Nat} {m : Memory} (h : Memory.wfFrom lo m = true) {a : Nat} (ha : a < lo) :
    Memory.read m a = 0 := by
  induction m generalizing lo with
  | nil => rfl
  | cons c m ih =>
    obtain ⟨k, v⟩ := c
    rw [Memory.wfFrom_cons] at h
    have hk : k ≠ a := by omega
    simp only [Memory.read, hk, if_false]
    exact ih h.2.2 (by omega)

theorem Memory.wfFrom_write {lo : Nat} {m : Memory} (h : Memory.wfFrom lo m = true) {a : Nat} (ha : lo ≤ a)
    (b : Byte) : Memory.wfFrom lo (Memory.write m a b) = true := by
  induction m generalizing lo with
  | nil =>
    unfold Memory.write
    split
    · rfl
    · rename_i hb
      rw [Memory.wfFrom_cons]
      exact ⟨ha, hb, rfl⟩
  | cons c m ih =>
    obtain ⟨k, v⟩ := c
    have h' := Memory.wfFrom_cons.mp h
    unfold Memory.write
    split
    · split
      · exact h
      · rename_i hak hb
        exact Memory.wfFrom_cons.mpr ⟨ha, hb, Memory.wfFrom_cons.mpr ⟨by omega, h'.2⟩⟩
    · split
      · split
        · exact Memory.wfFrom_mono h'.2.2 (by omega)
        · rename_i hak hk hb
          subst hk
          exact Memory.wfFrom_cons.mpr ⟨ha, hb, h'.2.2⟩
      · exact Memory.wfFrom_cons.mpr ⟨h'.1, h'.2.1, ih h'.2.2 (by omega)⟩

/-- A write keeps the canonical form. -/
theorem Memory.wf_write {m : Memory} (h : Memory.wf m = true) (a : Nat) (b : Byte) :
    Memory.wf (Memory.write m a b) = true :=
  Memory.wfFrom_write h (Nat.zero_le a) b

/-! ## Read after write -/

theorem Memory.read_cons_same (a : Nat) (b : Byte) (m : Memory) : Memory.read ((a, b) :: m) a = b := by
  simp [Memory.read]

theorem Memory.read_cons_other {k a : Nat} (b : Byte) (m : Memory) (h : k ≠ a) :
    Memory.read ((k, b) :: m) a = Memory.read m a := by
  simp [Memory.read, h]

theorem Memory.read_write_from {lo : Nat} {m : Memory} (h : Memory.wfFrom lo m = true) (a : Nat) (b : Byte)
    (x : Nat) : Memory.read (Memory.write m a b) x = if x = a then b else Memory.read m x := by
  induction m generalizing lo with
  | nil =>
    unfold Memory.write
    by_cases hx : x = a
    · subst hx
      by_cases hb : b = 0
      · rw [if_pos hb, if_pos rfl, hb, Memory.read]
      · rw [if_neg hb, if_pos rfl, Memory.read_cons_same]
    · by_cases hb : b = 0
      · rw [if_pos hb, if_neg hx]
      · rw [if_neg hb, if_neg hx, Memory.read_cons_other _ _ (Ne.symm hx)]
  | cons c m ih =>
    obtain ⟨k, v⟩ := c
    have h' := Memory.wfFrom_cons.mp h
    have below : ∀ y, y ≤ k → Memory.read m y = 0 := fun y hy => Memory.read_below h'.2.2 (by omega)
    unfold Memory.write
    by_cases h1 : a < k
    · rw [if_pos h1]
      by_cases hx : x = a
      · subst hx
        by_cases hb : b = 0
        · rw [if_pos hb, if_pos rfl, hb, Memory.read_cons_other _ _ (by omega), below _ (by omega)]
        · rw [if_neg hb, if_pos rfl, Memory.read_cons_same]
      · by_cases hb : b = 0
        · rw [if_pos hb, if_neg hx]
        · rw [if_neg hb, if_neg hx, Memory.read_cons_other _ _ (Ne.symm hx)]
    · rw [if_neg h1]
      by_cases h2 : a = k
      · subst h2
        rw [if_pos rfl]
        by_cases hx : x = a
        · subst hx
          by_cases hb : b = 0
          · rw [if_pos hb, if_pos rfl, hb, below _ (by omega)]
          · rw [if_neg hb, if_pos rfl, Memory.read_cons_same]
        · rw [if_neg hx, Memory.read_cons_other _ _ (Ne.symm hx)]
          by_cases hb : b = 0
          · rw [if_pos hb]
          · rw [if_neg hb, Memory.read_cons_other _ _ (Ne.symm hx)]
      · rw [if_neg h2]
        by_cases hk : k = x
        · subst hk
          rw [Memory.read_cons_same, if_neg (Ne.symm h2), Memory.read_cons_same]
        · rw [Memory.read_cons_other _ _ hk, Memory.read_cons_other _ _ hk, ih h'.2.2]

/-- What any address reads as after a write (R41, R53). -/
theorem Memory.read_write {m : Memory} (h : Memory.wf m = true) (a : Nat) (b : Byte) (x : Nat) :
    Memory.read (Memory.write m a b) x = if x = a then b else Memory.read m x :=
  Memory.read_write_from h a b x

theorem Memory.ext_from {lo : Nat} {m m' : Memory} (h : Memory.wfFrom lo m = true)
    (h' : Memory.wfFrom lo m' = true) (e : ∀ a, Memory.read m a = Memory.read m' a) : m = m' := by
  induction m generalizing lo m' with
  | nil =>
    cases m' with
    | nil => rfl
    | cons c m' =>
      obtain ⟨k, v⟩ := c
      have := e k
      simp only [Memory.read, if_true] at this
      exact absurd this.symm (Memory.wfFrom_cons.mp h').2.1
  | cons c m ih =>
    obtain ⟨k, v⟩ := c
    have hw := Memory.wfFrom_cons.mp h
    cases m' with
    | nil =>
      have := e k
      simp only [Memory.read, if_true] at this
      exact absurd this hw.2.1
    | cons c' m' =>
      obtain ⟨k', v'⟩ := c'
      have hw' := Memory.wfFrom_cons.mp h'
      have hk : k = k' := by
        rcases Nat.lt_trichotomy k k' with hlt | heq | hgt
        · have := e k
          have hne : k' ≠ k := by omega
          simp only [Memory.read, if_true, hne, if_false] at this
          rw [Memory.read_below hw'.2.2 (by omega)] at this
          exact absurd this hw.2.1
        · exact heq
        · have := e k'
          have hne : k ≠ k' := by omega
          simp only [Memory.read, if_true, hne, if_false] at this
          rw [Memory.read_below hw.2.2 (by omega)] at this
          exact absurd this.symm hw'.2.1
      subst hk
      have hv : v = v' := by simpa [Memory.read] using e k
      subst hv
      have : m = m' := by
        refine ih hw.2.2 hw'.2.2 fun a => ?_
        by_cases hka : k = a
        · subst hka
          rw [Memory.read_below hw.2.2 (by omega), Memory.read_below hw'.2.2 (by omega)]
        · simpa [Memory.read, hka] using e a
      rw [this]

/-- Memories in canonical form with equal bytes are equal data. -/
theorem Memory.ext {m m' : Memory} (h : Memory.wf m = true) (h' : Memory.wf m' = true)
    (e : ∀ a, Memory.read m a = Memory.read m' a) : m = m' :=
  Memory.ext_from h h' e

/-- A write lists no address but its own and the ones listed before. -/
theorem Memory.mem_write {m : Memory} {a : Nat} {b : Byte} {c : Host.Cell} (h : c ∈ Memory.write m a b) :
    c ∈ m ∨ c = (a, b) := by
  induction m with
  | nil =>
    unfold Memory.write at h
    split at h
    · cases h
    · exact .inr (List.mem_singleton.mp h)
  | cons d m ih =>
    obtain ⟨k, v⟩ := d
    unfold Memory.write at h
    split at h
    · split at h
      · exact .inl h
      · rcases List.mem_cons.mp h with h | h
        · exact .inr h
        · exact .inl h
    · split at h
      · split at h
        · exact .inl (List.mem_cons_of_mem _ h)
        · rcases List.mem_cons.mp h with h | h
          · exact .inr h
          · exact .inl (List.mem_cons_of_mem _ h)
      · rcases List.mem_cons.mp h with h | h
        · exact .inl (h ▸ List.mem_cons_self)
        · rcases ih h with h | h
          · exact .inl (List.mem_cons_of_mem _ h)
          · exact .inr h

/-! ## MemRead (R46) -/

/-- A read that stays inside the memory gives its bytes in ascending order. -/
theorem memRead_inside {size a n : Nat} (m : Memory) (h : a + n ≤ size) :
    memRead size m a n = .ok ((List.range n).map fun k => Memory.read m (a + k)) := by
  induction n generalizing a with
  | zero => rfl
  | succ n ih =>
    have h1 : ¬ size ≤ a := by omega
    rw [memRead, if_neg h1, ih (by omega), List.range_succ_eq_map]
    simp [Function.comp_def, Nat.add_assoc, Nat.add_comm 1]

/-- A read that leaves the memory reports the first address outside. -/
theorem memRead_outside {size a n : Nat} (m : Memory) (hn : 0 < n) (h : size < a + n) :
    memRead size m a n = .error (max a size) := by
  induction n generalizing a with
  | zero => omega
  | succ n ih =>
    rw [memRead]
    by_cases h1 : size ≤ a
    · rw [if_pos h1, Nat.max_eq_left h1]
    · rw [if_neg h1, ih (by omega) (by omega)]
      have : max (a + 1) size = max a size := by omega
      rw [this]

/-! ## MemWrite (R47) -/

theorem memWrite_wf {size a : Nat} {bs : List Byte} {m : Memory} (h : Memory.wf m = true) :
    Memory.wf (memWrite size a bs m).1 = true := by
  induction bs generalizing a m with
  | nil => exact h
  | cons b bs ih =>
    rw [memWrite]
    split
    · exact h
    · exact ih (Memory.wf_write h a b)

/-- A write lists no address outside the memory. -/
theorem memWrite_bounded {size a : Nat} {bs : List Byte} {m : Memory} (h : ∀ c ∈ m, c.1 < size) :
    ∀ c ∈ (memWrite size a bs m).1, c.1 < size := by
  induction bs generalizing a m with
  | nil => exact h
  | cons b bs ih =>
    rw [memWrite]
    split
    · exact h
    · rename_i ha
      refine ih fun c hc => ?_
      rcases Memory.mem_write hc with hc | rfl
      · exact h c hc
      · exact Nat.lt_of_not_le ha

/-- What any address reads as after MemWrite: the bytes inside the memory are written, the others are as before. -/
theorem read_memWrite {size a : Nat} {bs : List Byte} {m : Memory} (h : Memory.wf m = true) (x : Nat) :
    Memory.read (memWrite size a bs m).1 x =
      if a ≤ x ∧ x < a + bs.length ∧ x < size then bs.getD (x - a) 0 else Memory.read m x := by
  induction bs generalizing a m with
  | nil =>
    have : ¬ (a ≤ x ∧ x < a + 0 ∧ x < size) := by omega
    simp [memWrite]
    omega
  | cons b bs ih =>
    rw [memWrite]
    split
    · rename_i ha
      have : ¬ (a ≤ x ∧ x < a + (b :: bs).length ∧ x < size) := by omega
      rw [if_neg this]
    · rename_i ha
      rw [ih (Memory.wf_write h a b), Memory.read_write h, List.length_cons]
      by_cases hx : x = a
      · subst hx
        have h1 : ¬ (x + 1 ≤ x ∧ x < x + 1 + bs.length ∧ x < size) := by omega
        have h2 : x ≤ x ∧ x < x + (bs.length + 1) ∧ x < size := by omega
        rw [if_neg h1, if_pos rfl, if_pos h2]
        simp
      · rw [if_neg hx]
        by_cases h1 : a + 1 ≤ x ∧ x < a + 1 + bs.length ∧ x < size
        · have h2 : a ≤ x ∧ x < a + (bs.length + 1) ∧ x < size := by omega
          rw [if_pos h1, if_pos h2]
          have h3 : x - a = (x - (a + 1)) + 1 := by omega
          rw [h3, List.getD_cons_succ]
        · have h2 : ¬ (a ≤ x ∧ x < a + (bs.length + 1) ∧ x < size) := by omega
          rw [if_neg h1, if_neg h2]

/-- Byte k of the value is at the k-th address, where that address is inside the memory. -/
theorem read_memWrite_written {size a : Nat} {bs : List Byte} {m : Memory} (h : Memory.wf m = true) {k : Nat}
    (hk : k < bs.length) (hs : a + k < size) : Memory.read (memWrite size a bs m).1 (a + k) = bs[k] := by
  rw [read_memWrite h, if_pos ⟨by omega, by omega, hs⟩, Nat.add_sub_cancel_left, List.getD_eq_getElem?_getD,
    List.getElem?_eq_getElem hk, Option.getD_some]

/-- Every address outside the bytes stored to reads as before. -/
theorem read_memWrite_other {size a : Nat} {bs : List Byte} {m : Memory} (h : Memory.wf m = true) {x : Nat}
    (hx : ¬ (a ≤ x ∧ x < a + bs.length ∧ x < size)) :
    Memory.read (memWrite size a bs m).1 x = Memory.read m x := by
  rw [read_memWrite h, if_neg hx]

/-- MemWrite completes when every byte is inside the memory. -/
theorem memWrite_inside {size a : Nat} {bs : List Byte} (m : Memory) (h : a + bs.length ≤ size) :
    (memWrite size a bs m).2 = none := by
  induction bs generalizing a m with
  | nil => rfl
  | cons b bs ih =>
    rw [List.length_cons] at h
    have h1 : ¬ size ≤ a := by omega
    rw [memWrite, if_neg h1]
    exact ih _ (by omega)

/-- Otherwise MemWrite reports the first address outside. -/
theorem memWrite_outside {size a : Nat} {bs : List Byte} (m : Memory) (hn : bs ≠ []) (h : size < a + bs.length) :
    (memWrite size a bs m).2 = some (max a size) := by
  induction bs generalizing a m with
  | nil => exact absurd rfl hn
  | cons b bs ih =>
    rw [memWrite]
    by_cases h1 : size ≤ a
    · rw [if_pos h1, Nat.max_eq_left h1]
    · rw [if_neg h1]
      rw [List.length_cons] at h
      have hne : bs ≠ [] := by
        intro e
        subst e
        simp at h
        omega
      rw [ih _ hne (by omega)]
      have : max (a + 1) size = max a size := by omega
      rw [this]

/-- Outside the memory from its first byte, MemWrite writes nothing. -/
theorem memWrite_start_outside {size a : Nat} {bs : List Byte} (m : Memory) (h : size ≤ a) :
    (memWrite size a bs m).1 = m := by
  cases bs with
  | nil => rfl
  | cons b bs => rw [memWrite, if_pos h]

end Sys2Proof.Machine
end

