-- ==== Sys2Proof/Laws/State.lean ====
section
/-! SUPPORT. One lemma per field per update of the block and of the state, and the laws of registers and flags, so that
no later proof unfolds a record update. -/

namespace Sys2Proof.Machine

/-! ## Answering an operation -/

@[simp] theorem Block.ok_eq (b : Block) (r : Response) : b.ok r = (b, r) := rfl
@[simp] theorem Block.raise_eq (b : Block) (e : BlockError) : b.raise e = (b, Response.error e) := rfl

/-- What performing an operation does, said once: it goes on, with the block's new state and one response more. -/
theorem State.perform_eq (s : State) (f : Operation) :
    s.perform f = .next (s.answer (f s.toParams s.req s.toBlock)) := rfl

@[simp] theorem State.answer_toParams (s : State) (x : Block × Response) : (s.answer x).toParams = s.toParams := rfl
@[simp] theorem State.answer_toBlock (s : State) (x : Block × Response) : (s.answer x).toBlock = x.1 := rfl
@[simp] theorem State.answer_req (s : State) (x : Block × Response) : (s.answer x).req = s.req := rfl
@[simp] theorem State.answer_script (s : State) (x : Block × Response) : (s.answer x).script = s.script := rfl
@[simp] theorem State.answer_responses (s : State) (x : Block × Response) :
    (s.answer x).responses = s.responses ++ [x.2] := rfl

/-- Answering with the block as it was is one response and nothing else. -/
theorem State.answer_same (s : State) (r : Response) :
    s.answer (s.toBlock, r) = { s with responses := s.responses ++ [r] } := rfl

/-! ## Writing a register -/

@[simp] theorem Block.writeReg_mem (b : Block) (r : Reg) (v : Word) : (b.writeReg r v).mem = b.mem := by
  unfold Block.writeReg; split <;> rfl
@[simp] theorem Block.writeReg_flags (b : Block) (r : Reg) (v : Word) : (b.writeReg r v).flags = b.flags := by
  unfold Block.writeReg; split <;> rfl

/-- A register holds what was written to it (R121). -/
@[simp] theorem Block.readReg_writeReg_same (b : Block) (r : Reg) (v : Word) : (b.writeReg r v).readReg r = v := by
  obtain ⟨_ | _, i⟩ := r <;> simp [Block.writeReg, Block.readReg]

/-- Writing a register leaves the others alone (R23, R121). -/
theorem Block.readReg_writeReg_other (b : Block) {r r' : Reg} (v : Word) (h : r' ≠ r) :
    (b.writeReg r v).readReg r' = b.readReg r' := by
  obtain ⟨f, i⟩ := r
  obtain ⟨f', i'⟩ := r'
  cases f <;> cases f' <;> simp [Block.writeReg, Block.readReg, Vector.getElem_set, Fin.ext_iff] at h ⊢ <;> omega

/-- Writing a register with its own value changes nothing (R121). -/
theorem Block.writeReg_readReg (b : Block) (r : Reg) : b.writeReg r (b.readReg r) = b := by
  obtain ⟨_ | _, i⟩ := r <;> simp [Block.writeReg, Block.readReg]

/-! ## The flags and the request ports -/

@[simp] theorem Block.writeFlags_mem (b : Block) (f : BitVec 3) : (b.writeFlags f).mem = b.mem := rfl
@[simp] theorem Block.writeFlags_dregs (b : Block) (f : BitVec 3) : (b.writeFlags f).dregs = b.dregs := rfl
@[simp] theorem Block.writeFlags_aregs (b : Block) (f : BitVec 3) : (b.writeFlags f).aregs = b.aregs := rfl
@[simp] theorem Block.writeFlags_flags (b : Block) (f : BitVec 3) : (b.writeFlags f).flags = f := rfl
@[simp] theorem Block.writeFlags_readReg (b : Block) (f : BitVec 3) (r : Reg) :
    (b.writeFlags f).readReg r = b.readReg r := rfl

@[simp] theorem State.accept_toParams (s : State) (q : Request) (l : List Request) :
    (s.accept q l).toParams = s.toParams := rfl
@[simp] theorem State.accept_toBlock (s : State) (q : Request) (l : List Request) :
    (s.accept q l).toBlock = s.toBlock := rfl
@[simp] theorem State.accept_req (s : State) (q : Request) (l : List Request) : (s.accept q l).req = q := rfl
@[simp] theorem State.accept_script (s : State) (q : Request) (l : List Request) :
    (s.accept q l).script = l := rfl
@[simp] theorem State.accept_responses (s : State) (q : Request) (l : List Request) :
    (s.accept q l).responses = s.responses := rfl

@[simp] theorem State.issue_toParams (s : State) (q : Request) : (s.issue q).toParams = s.toParams := rfl
@[simp] theorem State.issue_toBlock (s : State) (q : Request) : (s.issue q).toBlock = s.toBlock := rfl
@[simp] theorem State.issue_req (s : State) (q : Request) : (s.issue q).req = s.req := rfl
@[simp] theorem State.issue_script (s : State) (q : Request) : (s.issue q).script = s.script ++ [q] := rfl
@[simp] theorem State.issue_responses (s : State) (q : Request) : (s.issue q).responses = s.responses := rfl

end Sys2Proof.Machine
end

