-- ==== Sys2Proof/Laws/Ops.lean ====
section
/-! SUPPORT. What the shared operations can do: the composition of bytes, and the loads and stores, each said once. -/

namespace Sys2Proof.Machine

/-! ## Composition (R44, R45) -/

/-- One byte, zero-extended (R65). -/
theorem composeBytes_one (b : Byte) : composeBytes [b] = b.zeroExtend 32 := by
  simp [composeBytes]

/-- One byte more: the earlier bytes move up by eight bits. -/
theorem composeBytes_concat (bs : List Byte) (b : Byte) :
    composeBytes (bs ++ [b]) = (composeBytes bs <<< 8) ||| b.zeroExtend 32 := by
  simp [composeBytes, List.foldl_append]

/-- Shifting in a byte below a value that leaves room for it is concatenation. -/
theorem shift_or_eq_append {n : Nat} (v : BitVec n) (b : Byte) :
    (v.zeroExtend 32 <<< 8 ||| b.zeroExtend 32 : Word) = (v ++ b).zeroExtend 32 := by
  ext i hi
  simp only [BitVec.getElem_or, BitVec.getElem_shiftLeft, BitVec.truncate_eq_setWidth, BitVec.getElem_setWidth,
    BitVec.getLsbD_append]
  by_cases h8 : i < 8
  · simp [h8]
  · have hb : b.getLsbD i = false := BitVec.getLsbD_of_ge b i (by omega)
    simp [h8, hb]

/-- A half-word is its two bytes, the first on top (R45). -/
theorem composeBytes_two (b0 b1 : Byte) : composeBytes [b0, b1] = (b0 ++ b1).zeroExtend 32 := by
  have := composeBytes_concat [b0] b1
  rw [composeBytes_one, shift_or_eq_append b0 b1] at this
  exact this

/-- A word is its four bytes, the first on top (R45). -/
theorem composeBytes_four (b0 b1 b2 b3 : Byte) :
    composeBytes [b0, b1, b2, b3] = (b0 ++ b1 ++ b2 ++ b3 : BitVec 32) := by
  have h3 := composeBytes_concat [b0, b1] b2
  rw [composeBytes_two, shift_or_eq_append (b0 ++ b1) b2] at h3
  have h4 := composeBytes_concat [b0, b1, b2] b3
  have h3' : composeBytes [b0, b1, b2] = (b0 ++ b1 ++ b2).zeroExtend 32 := h3
  rw [h3', shift_or_eq_append (b0 ++ b1 ++ b2) b3] at h4
  exact h4.trans (by simp)

/-- The four bytes of a value compose to the value (R82). -/
theorem composeBytes_bytesOf (v : Word) : composeBytes (bytesOf v) = v := by
  rw [bytesOf, composeBytes_four]
  ext i hi
  simp only [BitVec.getElem_append, BitVec.getElem_extractLsb']
  by_cases h0 : i < 8
  · simp [h0, BitVec.getLsbD_eq_getElem hi]
  · by_cases h1 : i < 16
    · have : i - 8 < 8 := by omega
      simp [h0, this, show 8 + (i - 8) = i by omega, BitVec.getLsbD_eq_getElem hi]
    · by_cases h2 : i < 24
      · have : ¬ i - 8 < 8 := by omega
        have h' : i - 8 - 8 < 8 := by omega
        simp [h0, this, h', show 16 + (i - 8 - 8) = i by omega, BitVec.getLsbD_eq_getElem hi]
      · have : ¬ i - 8 < 8 := by omega
        have h' : ¬ i - 8 - 8 < 8 := by omega
        simp [h0, this, h', show 24 + (i - 8 - 8 - 8) = i by omega, BitVec.getLsbD_eq_getElem hi]

/-- The two half-words of a value pack to the value (R83). -/
theorem composeHalves_shortsOf (v : Word) : composeHalves (shortsOf v) = v := by
  ext i hi
  simp only [shortsOf, composeHalves, List.foldl, BitVec.getElem_or, BitVec.getElem_shiftLeft,
    BitVec.truncate_eq_setWidth, BitVec.getElem_setWidth, BitVec.getLsbD_extractLsb']
  by_cases h : i < 16
  · simp [h, BitVec.getLsbD_eq_getElem hi]
  · have : i - 16 < 16 := by omega
    simp [h, this, show 16 + (i - 16) = i by omega, BitVec.getLsbD_eq_getElem hi]

/-! ## Loads (R46) -/

/-- A load that stays inside the memory answers its bytes, composed, and changes nothing. -/
theorem load_inside {size : MemSize} {a n : Nat} {b : Block} (h : a + n ≤ size.val) :
    load size a n b = (b, Response.word (composeBytes ((List.range n).map fun k => Memory.read b.mem (a + k)))) := by
  rw [load, memRead_inside b.mem h]; rfl

/-- A load that leaves the memory answers AccessError with the first address outside, and changes nothing. -/
theorem load_outside {size : MemSize} {a n : Nat} {b : Block} (hn : 0 < n) (h : size.val < a + n) :
    load size a n b = (b, Response.error (.access (max a size.val))) := by
  rw [load, memRead_outside b.mem hn h]; rfl

/-- The response of a load, which depends on the memory alone. -/
def loadResponse (size : MemSize) (m : Memory) (a n : Nat) : Response :=
  match memRead size.val m a n with
  | .ok bs => Response.word (composeBytes bs)
  | .error e => Response.error (.access e)

/-- Whatever a load does, it is one response, and the block stays as it is. -/
theorem load_eq (size : MemSize) (a n : Nat) (b : Block) : load size a n b = (b, loadResponse size b.mem a n) := by
  rw [load, loadResponse]
  cases memRead size.val b.mem a n <;> rfl

/-! ## Stores (R47) -/

/-- The response of a store, by what MemWrite reported. -/
def storeResponse : Option Nat → Response
  | none => Response.plain
  | some e => Response.error (.access e)

/-- Whatever a store does, it changes the memory as MemWrite says, gives one response, and changes nothing else. -/
theorem store_eq (size : MemSize) (a : Nat) (bs : List Byte) (b : Block) :
    store size a bs b =
      ({ b with mem := (memWrite size.val a bs b.mem).1 }, storeResponse (memWrite size.val a bs b.mem).2) := by
  rw [store]
  split <;> rename_i e <;> rw [e] <;> rfl

/-- A store that stays inside the memory answers OK. -/
theorem store_inside {size : MemSize} {a : Nat} {bs : List Byte} {b : Block} (h : a + bs.length ≤ size.val) :
    store size a bs b = ({ b with mem := (memWrite size.val a bs b.mem).1 }, Response.plain) := by
  rw [store_eq, memWrite_inside b.mem h]; rfl

/-- A store that leaves the memory answers AccessError with the first address outside; what MemWrite wrote before
stays written. -/
theorem store_outside {size : MemSize} {a : Nat} {bs : List Byte} {b : Block} (hn : bs ≠ [])
    (h : size.val < a + bs.length) :
    store size a bs b =
      ({ b with mem := (memWrite size.val a bs b.mem).1 }, Response.error (.access (max a size.val))) := by
  rw [store_eq, memWrite_outside b.mem hn h]; rfl

end Sys2Proof.Machine
end

