-- ==== Sys2Proof/Laws/PerInstr.lean ====
section
/-! SUPPORT. What holds of every command as syntax, one lemma per constructor. -/

namespace Sys2Proof.Laws.FieldsAreLegal

/-- The fields of the command are legal (R67): its OP is its mnemonic's, and every field its format does not use is
zero. -/
def Statement (i : Instr) : Prop := i.fields.op = i.mnemonic.op ∧ i.wellFormed = true

/-- The CR commands: any register is legal. -/
theorem ofReg_wellFormed (m : Mnemonic) (hm : m.format = .CR) (ho : Mnemonic.ofOp m.op = some m) (r : Reg) :
    (Fields.ofReg m r).wellFormed = true := by
  simp [Fields.wellFormed, Fields.ofReg, ho, hm, Fields.unusedZero]

theorem rdreg (r : Reg) : Statement (.rdreg r) := ⟨rfl, ofReg_wellFormed .RDREG rfl rfl r⟩
theorem wrreg (r : Reg) : Statement (.wrreg r) := ⟨rfl, ofReg_wellFormed .WRREG rfl rfl r⟩
theorem rdflg : Statement .rdflg := ⟨rfl, rfl⟩
theorem wrflg : Statement .wrflg := ⟨rfl, rfl⟩
theorem ldb : Statement .ldb := ⟨rfl, rfl⟩
theorem stb : Statement .stb := ⟨rfl, rfl⟩
theorem ldh : Statement .ldh := ⟨rfl, rfl⟩
theorem sth : Statement .sth := ⟨rfl, rfl⟩
theorem ldw : Statement .ldw := ⟨rfl, rfl⟩
theorem stw : Statement .stw := ⟨rfl, rfl⟩
theorem ldbx : Statement .ldbx := ⟨rfl, rfl⟩
theorem tosigned : Statement .tosigned := ⟨rfl, rfl⟩
theorem tounsigned : Statement .tounsigned := ⟨rfl, rfl⟩
theorem bytes : Statement .bytes := ⟨rfl, rfl⟩
theorem shorts : Statement .shorts := ⟨rfl, rfl⟩
theorem iszero : Statement .iszero := ⟨rfl, rfl⟩
theorem iseven : Statement .iseven := ⟨rfl, rfl⟩
theorem signbit : Statement .signbit := ⟨rfl, rfl⟩
theorem onesc : Statement .onesc := ⟨rfl, rfl⟩
theorem twosc : Statement .twosc := ⟨rfl, rfl⟩
theorem parity : Statement .parity := ⟨rfl, rfl⟩
theorem hexstr (h : HexFlag) : Statement (.hexstr h) := ⟨rfl, by cases h <;> rfl⟩
theorem parse : Statement .parse := ⟨rfl, rfl⟩
theorem settxt (r : Reg) : Statement (.settxt r) := ⟨rfl, ofReg_wellFormed .SETTXT rfl rfl r⟩
theorem name (r : Reg) : Statement (.name r) := ⟨rfl, ofReg_wellFormed .NAME rfl rfl r⟩
theorem valstr (r : Reg) : Statement (.valstr r) := ⟨rfl, ofReg_wellFormed .VALSTR rfl rfl r⟩

end Sys2Proof.Laws.FieldsAreLegal
end

