-- ==== Sys2Proof/Laws/Serve.lean ====
section
/-! SUPPORT. What `exec` can do, said once: it performs the command's operation, so it always goes on, and it changes
nothing but the block's state and the sequence of responses. -/

namespace Sys2Proof.Machine

/-- A command performs its operation (R60, R66). -/
theorem exec_eq_perform (i : Instr) (s : State) : exec i s = s.perform (operationOf i) := by
  cases i <;> rfl

/-- The next state of a command, from its operation. -/
theorem exec_next {i : Instr} {s t : State} (h : exec i s = .next t) :
    t = s.answer (operationOf i s.toParams s.req s.toBlock) := by
  rw [exec_eq_perform, State.perform_eq] at h
  exact (Host.Outcome.next.inj h).symm

end Sys2Proof.Machine
end

