-- ==== Sys2Proof/Tests/Slice0.lean ====
section
/-! SUPPORT. Tests: expected results are the vectors of spec/95_test_vectors.md and the examples of the rules, each named
beside its test; then, for every statement with hypotheses, a witness that meets them. -/

namespace Sys2Proof.Tests

open Sys2Proof.Machine

/-! ## Helpers -/

/-- The request ports with the given operands (CMD is not read by an operation). -/
def ports (p0 p1 p2 : Word) (t : String) : Request := ⟨0, p0, p1, p2, t.toList⟩

/-- A block of 16 bytes with the given ports; registers hold distinct values (REG_INIT is any function). -/
def block (q : Request) : State :=
  { State.construct 16 (fun f i => if f = .D then BitVec.ofNat 32 (100 + i.val) else BitVec.ofNat 32 (200 + i.val)) .fail
    with req := q }

/-- The state after an outcome, when the machine goes on. -/
def after : Outcome → Option State
  | .next s => some s
  | .fault _ => none
  | .refused _ => none

/-- The last response of an outcome. -/
def answer (o : Outcome) : Option Response := (after o).bind fun s => s.responses.getLast?

/-- The memory after an outcome, as its listed cells. -/
def cells (o : Outcome) : Option Memory := (after o).map fun s => s.mem

/-- An OK response with a word on RD. -/
def okWord (v : Word) : Option Response := some ⟨.ok, 0, v, false, false, []⟩

/-- An OK response with a bit on RB. -/
def okBit (b : Bool) : Option Response := some ⟨.ok, 0, 0, false, b, []⟩

/-- An OK response with a text on RT. -/
def okText (t : String) : Option Response := some ⟨.ok, 0, 0, false, false, t.toList⟩

/-- An OK response with no result. -/
def okPlain : Option Response := some ⟨.ok, 0, 0, false, false, []⟩

/-- An AccessError response: `AE(a)`. -/
def accessError (a : FaultAddress) : Option Response := some ⟨.accessError, a, 0, false, false, []⟩

/-! ## Decoding: words written out from R61 and R66 (OP, F, R, H, Z) -/

theorem test_decode_register_file :
    decode 0b00000001_0_000_00_000000000000000000 = .ok (.rdreg ⟨.D, 0⟩) ∧
    decode 0b00000010_1_011_00_000000000000000000 = .ok (.wrreg ⟨.A, 3⟩) ∧
    decode 0b00000011_0_000_00_000000000000000000 = .ok .rdflg ∧
    decode 0b00000100_0_000_00_000000000000000000 = .ok .wrflg := by decide

theorem test_decode_memory :
    decode 0b00010000_0_000_00_000000000000000000 = .ok .ldb ∧
    decode 0b00010001_0_000_00_000000000000000000 = .ok .stb ∧
    decode 0b00010010_0_000_00_000000000000000000 = .ok .ldh ∧
    decode 0b00010011_0_000_00_000000000000000000 = .ok .sth ∧
    decode 0b00010100_0_000_00_000000000000000000 = .ok .ldw ∧
    decode 0b00010101_0_000_00_000000000000000000 = .ok .stw ∧
    decode 0b00010110_0_000_00_000000000000000000 = .ok .ldbx := by decide

theorem test_decode_value :
    decode 0b00100000_0_000_00_000000000000000000 = .ok .tosigned ∧
    decode 0b00100001_0_000_00_000000000000000000 = .ok .tounsigned ∧
    decode 0b00100010_0_000_00_000000000000000000 = .ok .bytes ∧
    decode 0b00100011_0_000_00_000000000000000000 = .ok .shorts ∧
    decode 0b00100100_0_000_00_000000000000000000 = .ok .iszero ∧
    decode 0b00100101_0_000_00_000000000000000000 = .ok .iseven ∧
    decode 0b00100110_0_000_00_000000000000000000 = .ok .signbit ∧
    decode 0b00100111_0_000_00_000000000000000000 = .ok .onesc ∧
    decode 0b00101000_0_000_00_000000000000000000 = .ok .twosc ∧
    decode 0b00101001_0_000_00_000000000000000000 = .ok .parity := by decide

theorem test_decode_text :
    decode 0b00110000_0_000_11_000000000000000000 = .ok (.hexstr .dollar) ∧
    decode 0b00110001_0_000_00_000000000000000000 = .ok .parse ∧
    decode 0b00110010_1_111_00_000000000000000000 = .ok (.settxt ⟨.A, 7⟩) ∧
    decode 0b00110011_0_010_00_000000000000000000 = .ok (.name ⟨.D, 2⟩) ∧
    decode 0b00110100_0_001_00_000000000000000000 = .ok (.valstr ⟨.D, 1⟩) := by decide

/-- 95_test_vectors.md §2.5. -/
theorem test_decode_illegal :
    decode 0x00000000 = .error .reservedOpcode ∧ decode 0x01000001 = .error .unusedFieldNotZero ∧
    decode 0x03800000 = .error .unusedFieldNotZero ∧ decode 0x30800000 = .error .unusedFieldNotZero ∧
    decode 0x31040000 = .error .unusedFieldNotZero ∧ decode 0x2A000000 = .error .reservedOpcode ∧
    decode 0xFF000000 = .error .reservedOpcode := by decide

/-- One word of each row of the opcode table is the row's command for the host, and runs as the first step. -/
theorem test_table_rows_run_from_reset :
    ([0x01000000, 0x02000000, 0x03000000, 0x04000000, 0x10000000, 0x11000000, 0x12000000, 0x13000000, 0x14000000,
      0x15000000, 0x16000000, 0x20000000, 0x21000000, 0x22000000, 0x23000000, 0x24000000, 0x25000000, 0x26000000,
      0x27000000, 0x28000000, 0x29000000, 0x30000000, 0x31000000, 0x32000000, 0x33000000, 0x34000000] : List Nat).all
      (fun w => (decodeTableWord 32 w).isSome && (after (step (State.reset.withFetchWord 32 w))).isSome) = true := by
  decide

/-! ## WellFormed: an ill-formed term for each check -/

theorem smoke_reserved_op : (Fields.mk 0x00 0 0 0 0).wellFormed = false ∧ (Fields.mk 0x05 0 0 0 0).opAssigned = false := by
  decide

theorem smoke_cn_fields :
    (Fields.mk 0x03 1 0 0 0).wellFormed = false ∧ (Fields.mk 0x03 0 1 0 0).wellFormed = false ∧
    (Fields.mk 0x03 0 0 1 0).wellFormed = false ∧ (Fields.mk 0x03 0 0 0 1).wellFormed = false := by decide

theorem smoke_cr_fields :
    (Fields.mk 0x01 1 7 0 0).wellFormed = true ∧ (Fields.mk 0x01 0 0 1 0).wellFormed = false ∧
    (Fields.mk 0x01 0 0 0 1).wellFormed = false := by decide

theorem smoke_ch_fields :
    (Fields.mk 0x30 0 0 3 0).wellFormed = true ∧ (Fields.mk 0x30 1 0 0 0).wellFormed = false ∧
    (Fields.mk 0x30 0 1 0 0).wellFormed = false ∧ (Fields.mk 0x30 0 0 0 1).wellFormed = false := by decide

/-! ## Register file and flags (95_test_vectors.md §2.3) -/

/-- F3, F4, F5: A0 and D0 are separate. -/
theorem test_wrreg_separate_files :
    ((after (exec (.wrreg ⟨.A, 0⟩) (block (ports 0 9 0 "")))).map fun s => (s.readReg ⟨.A, 0⟩, s.readReg ⟨.D, 0⟩)) =
      some (9, 100) := by decide

theorem test_rdreg : answer (exec (.rdreg ⟨.A, 5⟩) (block (ports 0 0 0 ""))) = okWord 205 := by decide

/-- F6: all three flags; F8: bit 3 is ignored. -/
theorem test_wrflg :
    ((after (exec .wrflg (block (ports 0 0xFFFFFFFF 0 "")))).map fun s => s.flags) = some 0b111 ∧
    ((after (exec .wrflg (block (ports 0 0x8 0 "")))).map fun s => s.flags) = some 0b000 := by decide

/-- F9: Z = 1, C = 0, V = 1 reads as 5. -/
theorem test_rdflg : answer (exec .rdflg { block (ports 0 0 0 "") with flags := 0b101 }) = okWord 5 := by decide

/-! ## Memory (95_test_vectors.md §2.2 and the examples of R100 to R106) -/

/-- M2: only P1[7:0] is stored. -/
theorem test_stb : cells (exec .stb (block (ports 3 0x12345678 0 ""))) = some [(3, 0x78)] := by decide

/-- M3. -/
theorem test_ldb_outside : answer (exec .ldb (block (ports 0xFFFFFFFF 0 0 ""))) = accessError 0xFFFFFFFF := by decide

/-- W6: the last byte reads, the next one fails. -/
theorem test_ldb_last :
    answer (exec .ldb { block (ports 0xF 0 0 "") with mem := [(15, 0xBE)] }) = okWord 0xBE ∧
    answer (exec .ldb (block (ports 0x10 0 0 ""))) = accessError 16 := by decide

/-- M4, M7: the low half-word, and the partial write. -/
theorem test_sth :
    cells (exec .sth (block (ports 6 0xAAAABEEF 0 ""))) = some [(6, 0xBE), (7, 0xEF)] ∧
    cells (exec .sth (block (ports 0xF 0xBEEF 0 ""))) = some [(15, 0xBE)] := by decide

/-- M7, M8. -/
theorem test_sth_errors :
    answer (exec .sth (block (ports 0xF 0xBEEF 0 ""))) = accessError 16 ∧
    answer (exec .sth (block (ports 0x10 0xBEEF 0 ""))) = accessError 16 := by decide

/-- M6, an odd address; W6, the second byte outside. -/
theorem test_ldh :
    answer (exec .ldh { block (ports 7 0 0 "") with mem := [(6, 0xBE), (7, 0xEF)] }) = okWord 0xEF00 ∧
    answer (exec .ldh (block (ports 0xF 0 0 ""))) = accessError 16 := by decide

/-- M12, M13: the partial write of a word, and a word at an address that is not a multiple of 4. -/
theorem test_stw :
    cells (exec .stw (block (ports 0xE 0x01020304 0 ""))) = some [(14, 1), (15, 2)] ∧
    cells (exec .stw (block (ports 1 0xCAFEF00D 0 ""))) = some [(1, 0xCA), (2, 0xFE), (3, 0xF0), (4, 0x0D)] := by
  decide

/-- M16; M10, M11: the first address outside, or the start address. -/
theorem test_ldw :
    answer (exec .ldw { block (ports 0 0 0 "") with mem := [(1, 0xCA), (2, 0xFE), (3, 0xF0), (4, 0x0D)] }) =
      okWord 0x00CAFEF0 ∧
    answer (exec .ldw (block (ports 0xD 0 0 ""))) = accessError 16 ∧
    answer (exec .ldw (block (ports 0x11 0 0 ""))) = accessError 17 := by decide

/-- M17, M18, M19: the exact sum. -/
theorem test_ldbx :
    answer (exec .ldbx { block (ports 8 4 3 "") with mem := [(15, 0x02)] }) = okWord 2 ∧
    answer (exec .ldbx (block (ports 0xFFFFFFFF 1 0 ""))) = accessError 0x100000000 ∧
    answer (exec .ldbx (block (ports 0xFFFFFFFF 0xFFFFFFFF 0xFFFFFFFF ""))) = accessError 0x2FFFFFFFD := by decide

/-- The edge sizes of §2.2: 2^32 bytes, no wrap to address 0. -/
theorem test_stw_top_of_address_space :
    cells (exec .stw { block (ports 0xFFFFFFFE 0x11223344 0 "") with memSize := Fin.last _ }) =
      some [(0xFFFFFFFE, 0x11), (0xFFFFFFFF, 0x22)] ∧
    answer (exec .ldw { block (ports 0xFFFFFFFD 0 0 "") with memSize := Fin.last _ }) = accessError 0x100000000 := by
  decide

/-- The edge sizes of §2.2: no byte at all. -/
theorem test_empty_memory :
    answer (exec .ldb { block (ports 0 0 0 "") with memSize := 0 }) = accessError 0 ∧
    cells (exec .stw { block (ports 0 1 0 "") with memSize := 0 }) = some [] := by decide

/-- Writing 0x00 takes the cell out of the list: equal memories are equal data. -/
theorem test_store_zero : cells (exec .stb { block (ports 3 0x100 0 "") with mem := [(3, 7), (5, 9)] }) = some [(5, 9)] := by
  decide

/-! ## Values (95_test_vectors.md §2.1) -/

theorem test_tosigned :
    answer (exec .tosigned (block (ports 0 0xFFFFFFFB 0 ""))) = some ⟨.ok, 0, 0xFFFFFFFB, true, false, []⟩ ∧
    (0xFFFFFFFB : Word).toInt = -5 := by decide

theorem test_tounsigned : answer (exec .tounsigned (block (ports 0 0x80000000 0 ""))) = okWord 0x80000000 := by decide

theorem test_bytes :
    ((answer (exec .bytes (block (ports 0 0xDEADBEEF 0 "")))).map fun r => [r.b4 0, r.b4 1, r.b4 2, r.b4 3]) =
      some [0xDE, 0xAD, 0xBE, 0xEF] := by decide

theorem test_shorts :
    ((answer (exec .shorts (block (ports 0 0xE1139C89 0 "")))).map fun r => [r.h2 0, r.h2 1]) =
      some [0xE113, 0x9C89] := by decide

theorem test_iszero :
    answer (exec .iszero (block (ports 0 0 0 ""))) = okBit true ∧
    answer (exec .iszero (block (ports 0 0x80000000 0 ""))) = okBit false := by decide

theorem test_iseven :
    answer (exec .iseven (block (ports 0 0x80000000 0 ""))) = okBit true ∧
    answer (exec .iseven (block (ports 0 3 0 ""))) = okBit false := by decide

theorem test_signbit :
    answer (exec .signbit (block (ports 0 0x80000000 0 ""))) = okBit true ∧
    answer (exec .signbit (block (ports 0 0x7FFFFFFF 0 ""))) = okBit false := by decide

theorem test_onesc : answer (exec .onesc (block (ports 0 0x0F0F0F0F 0 ""))) = okWord 0xF0F0F0F0 := by decide

theorem test_twosc :
    answer (exec .twosc (block (ports 0 5 0 ""))) = okWord 0xFFFFFFFB ∧
    answer (exec .twosc (block (ports 0 0 0 ""))) = okWord 0 ∧
    answer (exec .twosc (block (ports 0 0x80000000 0 ""))) = okWord 0x80000000 := by decide

theorem test_parity :
    answer (exec .parity (block (ports 0 0xDEADBEEF 0 ""))) = okBit true ∧
    answer (exec .parity (block (ports 0 7 0 ""))) = okBit false := by decide

/-! ## Text (95_test_vectors.md §2.4) -/

theorem test_hexstr :
    answer (exec (.hexstr .none) (block (ports 0 0x00012345 0 ""))) = okText "00012345" ∧
    answer (exec (.hexstr .zeroX) (block (ports 0 0xFFFFFFFF 0 ""))) = okText "0xffffffff" := by decide

theorem test_parse_values :
    answer (exec .parse (block (ports 0 0 0 "$E113_9C89"))) = okWord 0xE1139C89 ∧
    answer (exec .parse (block (ports 0 0 0 "#$#12"))) = okWord 0x12 ∧
    answer (exec .parse (block (ports 0 0 0 "#0x12"))) = okWord 0 ∧
    answer (exec .parse (block (ports 0 0 0 "0XE1139C89"))) = okWord 0 ∧
    answer (exec .parse (block (ports 0 0 0 "1abc"))) = okWord 1 ∧
    answer (exec .parse { block (ports 0 0 0 "123456789") with parseOverflow := .wrap }) = okWord 0x23456789 := by
  decide

theorem test_parse_failures :
    (["", "#", "0x", "___", "abc", " 12", "123456789"].all fun t =>
      answer (exec .parse (block (ports 0 0 0 t))) = some ⟨.parseFailure, 0, 0, false, false, []⟩) = true := by decide

theorem test_settxt_fails_to_zero :
    answer (exec (.settxt ⟨.D, 0⟩) (block (ports 0 0 0 "xyz"))) = okBit false ∧
    ((after (exec (.settxt ⟨.D, 0⟩) (block (ports 0 0 0 "xyz")))).map fun s => s.readReg ⟨.D, 0⟩) = some 0 := by
  decide

theorem test_settxt :
    answer (exec (.settxt ⟨.A, 7⟩) (block (ports 0 0 0 "$E113_9C89"))) = okBit true ∧
    ((after (exec (.settxt ⟨.A, 7⟩) (block (ports 0 0 0 "$E113_9C89")))).map fun s =>
      (s.readReg ⟨.A, 7⟩, s.readReg ⟨.D, 7⟩)) = some (0xE1139C89, 107) := by decide

theorem test_name :
    answer (exec (.name ⟨.D, 0⟩) (block (ports 0 0 0 ""))) = okText "D0" ∧
    answer (exec (.name ⟨.A, 7⟩) (block (ports 0 0 0 ""))) = okText "A7" := by decide

/-- R151's example, on a register set to the value by SETTXT (program P4, steps 1 and 2). -/
theorem test_valstr :
    ((after (exec (.settxt ⟨.A, 7⟩) (block (ports 0 0 0 "$E113_9C89")))).bind fun s => answer (exec (.valstr ⟨.A, 7⟩) s)) =
      okText "#e1139c89" := by decide

/-! ## Steps, and the host's tools -/

/-- P3, step 8: an illegal word is answered IllegalCommand and the state is as before. -/
theorem test_step_illegal :
    step { block (ports 0 0 0 "") with script := [⟨0x01000001, 0, 0, 0, []⟩] } =
      .next { block ⟨0x01000001, 0, 0, 0, []⟩ with responses := [⟨.illegalCommand, 0, 0, false, false, []⟩] } := rfl

theorem test_assemble :
    assemble "LDBX 10, 0xfF_3, 4294967295".toList =
      some (.request ⟨0x16000000, 10, 0xff3, 0xffffffff, []⟩) ∧
    assemble "MOV D1, A2".toList = some (.pseudo (.mov ⟨.D, 1⟩ ⟨.A, 2⟩)) ∧
    assemble "PARSE \"a\\\"b\"".toList = some (.request ⟨0x31000000, 0, 0, 0, "a\"b".toList⟩) := by decide

theorem test_assemble_refuses :
    assemble "LDB 4294967296".toList = none ∧ assemble "LDB $1__2".toList = none ∧
    assemble "RDREG D8".toList = none ∧ assemble "LDB".toList = none := by decide

/-- R71: NEGREG of 5 is the pattern of -5 (P2, steps 1 to 4). -/
theorem test_negreg :
    ((after (runPseudo (.negreg ⟨.D, 0⟩)
      { block (ports 0 0 0 "") with toBlock := (block (ports 0 0 0 "")).writeReg ⟨.D, 0⟩ 5 })).map fun s => s.readReg ⟨.D, 0⟩) =
      some 0xFFFFFFFB := by decide

/-! ## Witnesses: concrete states and operands that meet the hypotheses of each statement -/

/-- A state whose host will issue one request. -/
def waiting (cmd : Word) (q : Request) : State := { block (ports 0 0 0 "") with script := [{ q with cmd := cmd }] }

theorem waiting_inv (cmd : Word) (q : Request) : (waiting cmd q).Inv :=
  ⟨rfl, fun _ h => absurd h List.not_mem_nil, fun _ h => absurd h List.not_mem_nil⟩

theorem witness_DecodeOfEncodeIsTheCommand : (Instr.settxt ⟨.A, 7⟩).wellFormed = true := by decide

theorem witness_EncodeOfDecodeIsTheWord : decode 0x32F00000 = .ok (.settxt ⟨.A, 7⟩) := by decide

theorem witness_LegalWordsDecodeAndOthersAreIllegal :
    (waiting 0x01000001 (ports 1 2 3 "x")).script = [⟨0x01000001, 1, 2, 3, ['x']⟩] ∧
    (Fields.ofWord 0x01000001).wellFormed = false := by decide

theorem witness_ReservedOpcodesAndReservedFieldAreIllegal :
    (0x05000000 : Word).extractLsb' 24 8 ∉ ([0x01, 0x02, 0x03, 0x04, 0x10, 0x11, 0x12, 0x13, 0x14, 0x15, 0x16, 0x20,
      0x21, 0x22, 0x23, 0x24, 0x25, 0x26, 0x27, 0x28, 0x29, 0x30, 0x31, 0x32, 0x33, 0x34] : List (BitVec 8)) ∧
    (0x0103FFFF : Word).extractLsb' 0 18 ≠ 0 := by decide

theorem witness_StepRunsTheDecodedCommand :
    (waiting 0x10000000 (ports 15 0 0 "")).script = [⟨0x10000000, 15, 0, 0, []⟩] ∧
    decode 0x10000000 = .ok .ldb ∧ Instr.ldb.wellFormed = true := by decide

theorem witness_StepWithoutARequestChangesNothing : State.reset.script = [] := rfl

theorem witness_EveryRequestGetsOneResponse :
    (waiting 0x10000000 (ports 16 0 0 "")).script = [⟨0x10000000, 16, 0, 0, []⟩] := by decide

theorem witness_ConstructionParametersNeverChange :
    (∃ t, exec .stw (block (ports 14 1 0 "")) = .next t) ∧
    (∃ t, step (waiting 0x15000000 (ports 14 1 0 "")) = .next t) := ⟨⟨_, rfl⟩, ⟨_, rfl⟩⟩

theorem witness_RunServesTheWholeScript :
    (waiting 0x15000000 (ports 14 1 0 "")).Inv ∧ (waiting 0x15000000 (ports 14 1 0 "")).script.length = 1 :=
  ⟨waiting_inv _ _, rfl⟩

theorem witness_EveryStepKeepsTheInvariant :
    (waiting 0x15000000 (ports 14 1 0 "")).Inv ∧ ∃ t, step (waiting 0x15000000 (ports 14 1 0 "")) = .next t :=
  ⟨waiting_inv _ _, _, rfl⟩

theorem witness_ValueOperationsArePureFunctionsOfP1 :
    Instr.parity ∈ valueOps ∧ (block (ports 0 7 0 "")).req.p1 = 7 := by decide

/-- LDB and STB: the last address inside and the first outside. -/
theorem witness_LoadByte_StoreByte :
    Memory.wf (block (ports 15 0 0 "")).mem = true ∧
    (block (ports 15 0 0 "")).req.p0.toNat < (block (ports 15 0 0 "")).memSize.val ∧
    (block (ports 16 0 0 "")).memSize.val ≤ (block (ports 16 0 0 "")).req.p0.toNat := by decide

/-- LDH and STH: the last half-word inside, the first address outside, and the last byte of the memory. -/
theorem witness_LoadHalfWord_StoreHalfWord :
    Memory.wf (block (ports 14 0 0 "")).mem = true ∧
    (block (ports 14 0 0 "")).req.p0.toNat + 1 < (block (ports 14 0 0 "")).memSize.val ∧
    (block (ports 16 0 0 "")).memSize.val ≤ (block (ports 16 0 0 "")).req.p0.toNat ∧
    (block (ports 15 0 0 "")).req.p0.toNat + 1 = (block (ports 15 0 0 "")).memSize.val := by decide

/-- LDW and STW: the last word inside, the first address outside, and both ends of the range that leaves the memory. -/
theorem witness_LoadWord_StoreWord :
    Memory.wf (block (ports 12 0 0 "")).mem = true ∧
    (block (ports 12 0 0 "")).req.p0.toNat + 3 < (block (ports 12 0 0 "")).memSize.val ∧
    (block (ports 16 0 0 "")).memSize.val ≤ (block (ports 16 0 0 "")).req.p0.toNat ∧
    ((block (ports 13 0 0 "")).req.p0.toNat < (block (ports 13 0 0 "")).memSize.val ∧
      (block (ports 13 0 0 "")).memSize.val ≤ (block (ports 13 0 0 "")).req.p0.toNat + 3) ∧
    ((block (ports 15 0 0 "")).req.p0.toNat < (block (ports 15 0 0 "")).memSize.val ∧
      (block (ports 15 0 0 "")).memSize.val ≤ (block (ports 15 0 0 "")).req.p0.toNat + 3) := by decide

/-- LDBX: the last sum inside, the first outside, and index and offset zero. -/
theorem witness_LoadByteIndexed :
    (block (ports 8 4 3 "")).req.p0.toNat + (block (ports 8 4 3 "")).req.p1.toNat +
      (block (ports 8 4 3 "")).req.p2.toNat < (block (ports 8 4 3 "")).memSize.val ∧
    (block (ports 8 4 4 "")).memSize.val ≤ (block (ports 8 4 4 "")).req.p0.toNat +
      (block (ports 8 4 4 "")).req.p1.toNat + (block (ports 8 4 4 "")).req.p2.toNat ∧
    (block (ports 8 0 0 "")).req.p1 = 0 ∧ (block (ports 8 0 0 "")).req.p2 = 0 := by decide

theorem witness_StoresFrame :
    Instr.stw ∈ storeOps ∧ Memory.wf (block (ports 14 1 0 "")).mem = true ∧
    ∃ t, exec .stw (block (ports 14 1 0 "")) = .next t := ⟨by decide, rfl, _, rfl⟩

theorem witness_NonStoresLeaveEveryByte :
    Instr.wrreg ⟨.D, 0⟩ ∉ storeOps ∧ ∃ t, exec (.wrreg ⟨.D, 0⟩) (block (ports 0 1 0 "")) = .next t :=
  ⟨by decide, _, rfl⟩

/-- Two states that differ in a register, the flags and a port LDB does not read. -/
theorem witness_MemoryOperationsTouchOnlyMemory :
    Instr.ldb ∈ loadOps ++ storeOps ∧
    (block (ports 3 1 0 "")).memSize = ({ block (ports 3 2 0 "") with flags := 7 } : State).memSize ∧
    (block (ports 3 1 0 "")).mem = ({ block (ports 3 2 0 "") with flags := 7 } : State).mem ∧
    (ports 3 1 0 "").agreeOn Instr.ldb.mnemonic.ports (ports 3 2 0 "") := by
  refine ⟨by decide, rfl, rfl, fun _ => rfl, fun h => ?_, fun _ => rfl, fun _ => rfl⟩
  exact absurd h (by decide)

theorem witness_StoredWordReadsBackByByte :
    Memory.wf (block (ports 12 0x01020304 0 "")).mem = true ∧
    (block (ports 12 0x01020304 0 "")).req.p0.toNat + 3 < (block (ports 12 0x01020304 0 "")).memSize.val := by decide

theorem witness_ReadAfterWriteGivesTheValue :
    Memory.wf (block (ports 12 5 0 "")).mem = true ∧
    (block (ports 12 5 0 "")).req.p0.toNat + 3 < (block (ports 12 5 0 "")).memSize.val ∧
    (ports 12 0 9 "x").p0 = (block (ports 12 5 0 "")).req.p0 := by decide

theorem witness_StoringTwiceIsStoringOnce :
    Instr.sth ∈ storeOps ∧ Memory.wf (block (ports 15 0xBEEF 0 "")).mem = true ∧
    ∃ t u, exec .sth (block (ports 15 0xBEEF 0 "")) = .next t ∧ exec .sth t = .next u :=
  ⟨by decide, rfl, _, _, rfl, rfl⟩

/-- A request that writes A3 and not D3, as one step and as a run from construction. -/
theorem witness_ReadRegister :
    decode 0x02B00000 ≠ .ok (.wrreg ⟨.D, 3⟩) ∧ decode 0x02B00000 ≠ .ok (.settxt ⟨.D, 3⟩) ∧
    (∃ t, step (waiting 0x02B00000 (ports 0 9 0 "")) = .next t) ∧
    ∃ t, Host.Core.run Sys2Proof.core 1
      { State.construct 16 (fun _ _ => 7) .fail with script := [⟨0x02B00000, 0, 9, 0, []⟩] } = .next t :=
  ⟨by decide, by decide, ⟨_, rfl⟩, _, rfl⟩

theorem witness_WriteRegister :
    Reg.mk .A 3 ≠ Reg.mk .D 3 ∧ (block (ports 0 103 0 "")).req.p1 = (block (ports 0 103 0 "")).readReg ⟨.D, 3⟩ := by
  decide

theorem witness_TheTwoRegisterFilesBehaveAlike :
    (∀ r, Instr.wrreg ⟨.D, 0⟩ ≠ .name r) ∧ ∃ t, exec (.wrreg ⟨.D, 0⟩) (block (ports 0 1 0 "")) = .next t :=
  ⟨nofun, _, rfl⟩

/-- What `ParseReadsPrefixRunAndEnding` asks of a text in three parts. -/
def threeParts (pfx run ending : Text) : Prop :=
  (pfx = ['0', 'x'] ∨ (∀ c ∈ pfx, c = '#' ∨ c = '$') ∧ (pfx ++ run ++ ending).take 2 ≠ ['0', 'x']) ∧
  (∀ c ∈ run, c ∈ "0123456789ABCDEF_".toList) ∧
  (∀ c ∈ ending.head?, c ∉ "0123456789ABCDEF_".toList ∧ (run = [] → pfx ≠ ['0', 'x'] → c ≠ '#' ∧ c ≠ '$'))

/-- A run of `#` and `$` and a number below 2^32. -/
theorem witness_ParseReadsPrefixRunAndEnding_number :
    threeParts ['#', '$'] ['1', '_', '2'] ['G', '4'] ∧ ['1', '_', '2'].filter (fun c => c != '_') ≠ [] ∧
    hexSum (['1', '_', '2'].filter fun c => c != '_') < 2 ^ 32 :=
  ⟨⟨.inr ⟨by simp, by simp⟩, by simp, by simp⟩, by decide, by decide⟩

/-- The prefix `0x` and no digit. -/
theorem witness_ParseReadsPrefixRunAndEnding_no_digit :
    threeParts ['0', 'x'] ['_', '_'] ['#'] ∧ ['_', '_'].filter (fun c => c != '_') = [] :=
  ⟨⟨.inl rfl, by simp, by simp⟩, by decide⟩

/-- No prefix, no ending, and the number 2^32. -/
theorem witness_ParseReadsPrefixRunAndEnding_overflow :
    threeParts [] ['1', '0', '0', '0', '0', '0', '0', '0', '0'] [] ∧
    ['1', '0', '0', '0', '0', '0', '0', '0', '0'].filter (fun c => c != '_') ≠ [] ∧
    2 ^ 32 ≤ hexSum (['1', '0', '0', '0', '0', '0', '0', '0', '0'].filter fun c => c != '_') :=
  ⟨⟨.inr ⟨by simp, by simp⟩, by simp, by simp⟩, by decide, by decide⟩

theorem witness_ParseCommand :
    parseText (block (ports 0 0 0 "#9")).parseOverflow (block (ports 0 0 0 "#9")).req.text = some 9 ∧
    parseText (block (ports 0 0 0 "#")).parseOverflow (block (ports 0 0 0 "#")).req.text = none := by decide

theorem witness_SetRegisterFromText : Reg.mk .A 7 ≠ Reg.mk .D 7 := by decide

theorem witness_RegisterNames : regName ⟨.A, 5⟩ = regName ⟨.A, 5⟩ := rfl

/-- A value whose first large group is the first, one where it is the third, and one where it is the last. -/
theorem witness_TextRoundTripHoldsExactlyForDecimalDigits :
    10 ≤ nibble 0xE1139C89 0 ∧
    (10 ≤ nibble 0x12A45678 2 ∧ ∀ j < 2, nibble 0x12A45678 j ≤ 9) ∧
    (10 ≤ nibble 0x1234567F 7 ∧ ∀ j < 7, nibble 0x1234567F j ≤ 9) ∧
    (∀ k < 8, nibble 0x12345678 k ≤ 9) := by decide

/-- The two sides of R148 at those values (W2, and R149's lowercase corner case). -/
theorem test_round_trip :
    parseText .fail (hexString 0xE1139C89 .hash) = none ∧
    parseText .fail (hexString 0x12A45678 .dollar) = some 0x12 ∧
    parseText .fail (hexString 0x12345678 .zeroX) = some 0x12345678 ∧
    parseText .wrap (hexString 0x0000000A .none) = some 0 := by decide

theorem witness_OnlyWrflgWritesAndOnlyRdflgReadsTheFlags :
    Instr.twosc ≠ .wrflg ∧ Instr.twosc ≠ .rdflg ∧
    (∃ t, exec .twosc (block (ports 0 0x80000000 0 "")) = .next t) ∧
    ∃ t, exec .wrflg (block (ports 0 5 0 "")) = .next t := ⟨by decide, by decide, ⟨_, rfl⟩, _, rfl⟩

theorem witness_OnlyRegisterCommandsTouchRegisters :
    (∀ r, Instr.rdflg ≠ .rdreg r) ∧ (∀ r, Instr.rdflg ≠ .valstr r) ∧ (∀ r, Instr.rdflg ≠ .wrreg r) ∧
    (∀ r, Instr.rdflg ≠ .settxt r) ∧ (∃ t, exec .rdflg (block (ports 0 0 0 "")) = .next t) ∧
    (∃ t, exec (.wrreg ⟨.D, 1⟩) (block (ports 0 4 0 "")) = .next t) ∧
    (∃ t, exec (.settxt ⟨.D, 1⟩) (block (ports 0 0 0 "#9")) = .next t) :=
  ⟨nofun, nofun, nofun, nofun, ⟨_, rfl⟩, ⟨_, rfl⟩, ⟨_, rfl⟩⟩

/-- One request for each error: PARSE of an empty text, an illegal word, and LDB at the first address outside. -/
theorem witness_ErrorsAndTheirOnlyCauses :
    (∃ t, step (waiting 0x31000000 (ports 0 0 0 "")) = .next t ∧
      t.responses = [] ++ [⟨.parseFailure, 0, 0, false, false, []⟩]) ∧
    (∃ t, step (waiting 0x00000000 (ports 0 0 0 "")) = .next t ∧
      t.responses = [] ++ [⟨.illegalCommand, 0, 0, false, false, []⟩]) ∧
    (∃ t, step (waiting 0x10000000 (ports 16 0 0 "")) = .next t ∧
      t.responses = [] ++ [⟨.accessError, 16, 0, false, false, []⟩]) :=
  ⟨⟨_, rfl, rfl⟩, ⟨_, rfl, rfl⟩, ⟨_, rfl, rfl⟩⟩

/-- A failing store and a failing read. -/
theorem witness_ErrorsChangeOnlyAStoresBytes :
    (waiting 0x15000000 (ports 14 1 0 "")).Inv ∧
    (∃ t, step (waiting 0x15000000 (ports 14 1 0 "")) = .next t ∧
      t.responses = [] ++ [⟨.accessError, 16, 0, false, false, []⟩]) ∧
    (∃ t, step (waiting 0x14000000 (ports 14 1 0 "")) = .next t ∧
      t.responses = [] ++ [⟨.accessError, 16, 0, false, false, []⟩]) ∧
    (∀ i ∈ storeOps, decode 0x14000000 ≠ .ok i) :=
  ⟨waiting_inv _ _, ⟨_, rfl, rfl⟩, ⟨_, rfl, rfl⟩, by decide⟩

theorem witness_ResultsHaveTheKindOfTheTable :
    ∃ t, exec .tosigned (block (ports 0 7 0 "")) = .next t ∧
      t.responses = (block (ports 0 7 0 "")).responses ++ [⟨.ok, 0, 7, true, false, []⟩] := ⟨_, rfl, rfl⟩

theorem witness_UnusedPortsAreIgnored :
    (ports 3 1 2 "x").agreeOn Instr.ldb.mnemonic.ports (ports 3 5 6 "y") := by
  refine ⟨fun _ => rfl, fun h => absurd h (by decide), fun h => absurd h (by decide), fun h => absurd h (by decide)⟩

theorem witness_PseudoOperationsDoWhatTheyExpandTo : Reg.mk .A 0 ≠ Reg.mk .D 0 := by decide

theorem witness_StepIsTheBlockServingTheRequest :
    (waiting 0x15000000 (ports 14 1 0 "")).script = [⟨0x15000000, 14, 1, 0, []⟩] := rfl

/-- The block alone (R189; W10): a word stored and read back, with both responses. -/
theorem test_serveAll :
    (serveAll ⟨16, .fail⟩ [⟨0x15000000, 0, 0xDEADBEEF, 0, []⟩, ⟨0x14000000, 0, 0, 0, []⟩]
      (Block.construct fun _ _ => 7)).2 =
      [⟨.ok, 0, 0, false, false, []⟩, ⟨.ok, 0, 0xDEADBEEF, false, false, []⟩] := by decide

end Sys2Proof.Tests
end

section
/-! SUPPORT. A step is the block serving the request: the machine's `step` and the block by itself, `serveRequest`, tied
by one equation. -/

namespace Sys2Proof.Machine

/-- With an illegal word on the ports, the block reads no operand and answers IllegalCommand (R67, R164). -/
theorem serveRequest_of_decode_error {q : Request} {e : DecodeError} (h : decode q.cmd = .error e) (p : Params) (b : Block) :
    serveRequest p q b = opIllegal p q b := by
  rw [serveRequest, h]

/-- With a legal word on the ports, the block answers what the decoded command's operation does (R60, R67). -/
theorem serveRequest_of_decode_ok {q : Request} {i : Instr} (h : decode q.cmd = .ok i) (p : Params) (b : Block) :
    serveRequest p q b = operationOf i p q b := by
  rw [serveRequest, h]

/-- What a step with a request does, said once: the request goes from the script to the ports, and the machine performs
the block's serving of it, whether or not its word is legal. -/
theorem step_eq_perform_serveRequest {s : State} {q : Request} {rest : List Request} (h : s.script = q :: rest) :
    step s = (s.accept q rest).perform serveRequest := by
  rw [step, h]
  cases hd : decode q.cmd with
  | ok i => simp only [hd, exec_eq_perform, State.perform_eq, State.accept_req, serveRequest_of_decode_ok hd]
  | error e => simp only [hd, State.perform_eq, State.accept_req, serveRequest_of_decode_error hd]

/-- Settles O53: a step performs `serveRequest` on the accepted request, and answering writes the four parts of the block
and one response. -/
theorem stepIsTheBlockServingTheRequest : Obligations.StepIsTheBlockServingTheRequest := by
  intro s q rest h
  exact ⟨_, _, rfl, step_eq_perform_serveRequest h⟩

end Sys2Proof.Machine
end

section
/-! SUPPORT. What every operation writes and what its response reads, each said once over all commands; the frame and
noninterference statements are read off from the two. -/

namespace Sys2Proof.Machine

/-! ## The register commands -/

/-- SETTXT writes the value of the text, or zero, and RB tells whether there was one; neither reads a register (R149). -/
theorem opSettxt_eq (r : Reg) (p : Params) (q : Request) (b : Block) :
    opSettxt r p q b = (b.writeReg r ((parseText p.parseOverflow q.text).getD 0),
      Response.bool (parseText p.parseOverflow q.text).isSome) := by
  rw [opSettxt]
  cases parseText p.parseOverflow q.text <;> rfl

/-- PARSE is one response, which depends on no part of the block's state (R147). -/
theorem opParse_eq (p : Params) (q : Request) (b : Block) :
    opParse p q b = (b, ((parseText p.parseOverflow q.text).map Response.word).getD (Response.error .parseFailure)) := by
  rw [opParse]
  cases parseText p.parseOverflow q.text <;> rfl

/-- The commands that write a register write one value, and give one response, whatever the block holds (R121, R149). -/
theorem operationOf_registerWrite {i : Instr} {r : Reg} (h : i = .wrreg r ∨ i = .settxt r) (p : Params) (q : Request) :
    ∃ v x, ∀ b, operationOf i p q b = (b.writeReg r v, x) := by
  rcases h with rfl | rfl
  · exact ⟨q.value, Response.plain, fun _ => rfl⟩
  · exact ⟨_, _, opSettxt_eq r p q⟩

/-! ## What an operation writes, and what its response reads -/

/-- A store writes the memory as MemWrite says, and nothing else of the block (R47). -/
theorem store_fst (size : MemSize) (a : Nat) (bs : List Byte) (b : Block) :
    (store size a bs b).1 = { b with mem := (memWrite size.val a bs b.mem).1 } :=
  congrArg Prod.fst (store_eq size a bs b)

/-- What an operation does to the block, whatever the block holds: nothing, the bytes of a store, one register, or the
flags; and which commands do which (R25, R27, R90). -/
theorem operationOf_writes (i : Instr) (p : Params) (q : Request) :
    (∀ b, (operationOf i p q b).1 = b) ∨
    (i ∈ storeOps ∧ ∃ a bs, ∀ b,
      (operationOf i p q b).1 = { b with mem := (memWrite p.memSize.val a bs b.mem).1 }) ∨
    (∃ r v, (i = .wrreg r ∨ i = .settxt r) ∧ ∀ b, (operationOf i p q b).1 = b.writeReg r v) ∨
    (i = .wrflg ∧ ∃ f, ∀ b, (operationOf i p q b).1 = b.writeFlags f) := by
  cases i with
  | stb | sth | stw => exact .inr (.inl ⟨by decide, _, _, store_fst p.memSize _ _⟩)
  | wrreg r => exact .inr (.inr (.inl ⟨r, _, .inl rfl, fun _ => rfl⟩))
  | settxt r => exact .inr (.inr (.inl ⟨r, _, .inr rfl, fun b => congrArg Prod.fst (opSettxt_eq r p q b)⟩))
  | wrflg => exact .inr (.inr (.inr ⟨rfl, _, fun _ => rfl⟩))
  | ldb | ldh | ldw | ldbx => exact .inl fun b => congrArg Prod.fst (load_eq p.memSize _ _ b)
  | parse => exact .inl fun b => congrArg Prod.fst (opParse_eq p q b)
  | _ => exact .inl fun _ => rfl

/-- What a response reads of the block: the memory, a register for RDREG and VALSTR, and the flags for RDFLG. On blocks
that agree there, the response is the same (R25, R27). -/
theorem operationOf_response_congr {i : Instr} {b b' : Block} (p : Params) (q : Request) (hm : b'.mem = b.mem)
    (hr : ∀ r, i = .rdreg r ∨ i = .valstr r → b'.readReg r = b.readReg r) (hf : i = .rdflg → b'.flags = b.flags) :
    (operationOf i p q b').2 = (operationOf i p q b).2 := by
  cases i with
  | rdreg r => simp [operationOf, opRdreg, hr r (.inl rfl)]
  | valstr r => simp [operationOf, opValstr, hr r (.inr rfl)]
  | rdflg => simp [operationOf, opRdflg, hf rfl]
  | ldb | ldh | ldw | ldbx => simp [operationOf, opLdb, opLdh, opLdw, opLdbx, load_eq, hm]
  | stb | sth | stw => simp [operationOf, opStb, opSth, opStw, store_eq, hm]
  | parse => simp [operationOf, opParse_eq]
  | settxt r => simp [operationOf, opSettxt_eq]
  | _ => rfl

end Sys2Proof.Machine
end

section
/-! SUPPORT. The invariant (R30, R64, R161, R162): every operation keeps the memory canonical and inside MEM_SIZE and
answers a well shaped response, so every step keeps the invariant. -/

namespace Sys2Proof.Machine

/-! ## The memory -/

/-- The memory is in canonical form and lists no address outside `size` (R30): the part of the invariant about memory. -/
def Memory.Fits (size : Nat) (m : Memory) : Prop := Memory.wf m = true ∧ ∀ c ∈ m, c.1 < size

theorem State.inv_iff {s : State} :
    s.Inv ↔ Memory.Fits s.memSize.val s.mem ∧ ∀ r ∈ s.responses, r.wellShaped s.memSize.val :=
  and_assoc.symm

/-- Every operation keeps the memory canonical and inside MEM_SIZE (R47). -/
theorem operationOf_keeps_fits (i : Instr) (p : Params) (q : Request) {b : Block} (h : Memory.Fits p.memSize.val b.mem) :
    Memory.Fits p.memSize.val (operationOf i p q b).1.mem := by
  obtain e | ⟨-, a, bs, e⟩ | ⟨r, v, -, e⟩ | ⟨-, f, e⟩ := operationOf_writes i p q <;> rw [e]
  · exact h
  · exact ⟨memWrite_wf h.1, memWrite_bounded h.2⟩
  · rwa [Block.writeReg_mem]
  · exact h

/-! ## The responses -/

/-- An OK response with no address is well shaped, whatever its result. -/
theorem Response.wellShaped_of_ok {size : Nat} {r : Response} (hs : r.st = .ok) (hf : r.fa = 0) : r.wellShaped size := by
  simp [Response.wellShaped, hs, hf]

/-- An error response is well shaped when the address it records, if any, is outside the memory and FA, which has 34
bits, holds it (R64, R161). -/
theorem Response.error_wellShaped {size : Nat} {e : BlockError} (h : ∀ a, e = .access a → size ≤ a ∧ a < 2 ^ 34) :
    (Response.error e).wellShaped size := by
  cases e with
  | access a =>
    obtain ⟨outside, fits⟩ := h a rfl
    have recorded : (Response.error (.access a)).fa.toNat = a := Nat.mod_eq_of_lt fits
    exact ⟨nofun, fun _ => ⟨rfl, rfl, rfl, rfl⟩, absurd rfl, fun _ => Nat.le_trans outside (Nat.le_of_eq recorded.symm)⟩
  | parseFailure | illegalCommand => exact ⟨nofun, fun _ => ⟨rfl, rfl, rfl, rfl⟩, fun _ => rfl, nofun⟩

/-- The first address outside of an access that leaves the memory fits on FA: MEM_SIZE is at most 2^32. -/
theorem Response.error_max_wellShaped (size : MemSize) {a : Nat} (ha : a < 2 ^ 34) :
    (Response.error (.access (max a size.val))).wellShaped size.val := by
  refine Response.error_wellShaped fun x hx => ?_
  cases hx
  omega

theorem load_wellShaped (size : MemSize) {a n : Nat} (b : Block) (hn : 0 < n) (ha : a < 2 ^ 34) :
    (load size a n b).2.wellShaped size.val := by
  by_cases h : a + n ≤ size.val
  · rw [load_inside h]
    exact Response.wellShaped_of_ok rfl rfl
  · rw [load_outside hn (by omega)]
    exact Response.error_max_wellShaped size ha

theorem store_wellShaped (size : MemSize) {a : Nat} {bs : List Byte} (b : Block) (hn : bs ≠ []) (ha : a < 2 ^ 34) :
    (store size a bs b).2.wellShaped size.val := by
  by_cases h : a + bs.length ≤ size.val
  · rw [store_inside h]
    exact Response.wellShaped_of_ok rfl rfl
  · rw [store_outside hn (by omega)]
    exact Response.error_max_wellShaped size ha

theorem Request.address_lt (q : Request) : q.address < 2 ^ 34 := by
  rw [Request.address]
  omega

/-- The exact sum of three addresses fits on FA (R64, R106). -/
theorem Request.indexedAddress_lt (q : Request) : q.indexedAddress < 2 ^ 34 := by
  rw [Request.indexedAddress]
  omega

/-- Every command answers a well shaped response (R64, R161, R162). -/
theorem operationOf_wellShaped (i : Instr) (p : Params) (q : Request) (b : Block) :
    (operationOf i p q b).2.wellShaped p.memSize.val := by
  cases i with
  | ldb | ldh | ldw => exact load_wellShaped p.memSize b (by decide) q.address_lt
  | ldbx => exact load_wellShaped p.memSize b (by decide) q.indexedAddress_lt
  | stb | sth | stw => exact store_wellShaped p.memSize b (List.cons_ne_nil _ _) q.address_lt
  | parse =>
    rw [operationOf, opParse_eq]
    cases parseText p.parseOverflow q.text with
    | none => exact Response.error_wellShaped nofun
    | some v => exact Response.wellShaped_of_ok rfl rfl
  | settxt r =>
    rw [operationOf, opSettxt_eq]
    exact Response.wellShaped_of_ok rfl rfl
  | _ => exact Response.wellShaped_of_ok rfl rfl

/-! ## The step -/

/-- Serving a request, legal or not, keeps the memory canonical and inside MEM_SIZE. -/
theorem serveRequest_keeps_fits (p : Params) (q : Request) {b : Block} (h : Memory.Fits p.memSize.val b.mem) :
    Memory.Fits p.memSize.val (serveRequest p q b).1.mem := by
  cases hd : decode q.cmd with
  | ok i =>
    rw [serveRequest_of_decode_ok hd]
    exact operationOf_keeps_fits i p q h
  | error e =>
    rw [serveRequest_of_decode_error hd]
    exact h

/-- A request, legal or not, is answered with a well shaped response. -/
theorem serveRequest_wellShaped (p : Params) (q : Request) (b : Block) :
    (serveRequest p q b).2.wellShaped p.memSize.val := by
  cases hd : decode q.cmd with
  | ok i =>
    rw [serveRequest_of_decode_ok hd]
    exact operationOf_wellShaped i p q b
  | error e =>
    rw [serveRequest_of_decode_error hd]
    exact Response.error_wellShaped nofun

/-- An answer keeps the invariant when its memory fits and its response is well shaped. -/
theorem State.Inv.answer {s : State} (h : s.Inv) {x : Block × Response} (hm : Memory.Fits s.memSize.val x.1.mem)
    (hr : x.2.wellShaped s.memSize.val) : (s.answer x).Inv := by
  refine State.inv_iff.mpr ⟨hm, fun r h' => ?_⟩
  obtain h' | h' := List.mem_append.mp h'
  · exact (State.inv_iff.mp h).2 r h'
  · rwa [List.mem_singleton.mp h']

/-- Settles O13: a step answers the request in service, if there is one, with what `serveRequest` gives. -/
theorem everyStepKeepsTheInvariant : Obligations.EveryStepKeepsTheInvariant := by
  intro s t h hstep
  cases hs : s.script with
  | nil =>
    rw [step, hs] at hstep
    exact Host.Outcome.next.inj hstep ▸ h
  | cons q rest =>
    rw [step_eq_perform_serveRequest hs, State.perform_eq] at hstep
    rw [← Host.Outcome.next.inj hstep]
    have accepted : (s.accept q rest).Inv := h
    exact accepted.answer (serveRequest_keeps_fits _ _ (State.inv_iff.mp h).1) (serveRequest_wellShaped _ _ _)

end Sys2Proof.Machine
end

section
/-! SUPPORT. The flags and the registers (R25, R27): which commands write them, and which read them. -/

namespace Sys2Proof.Machine

/-- When a command's operation commutes with a change of the block, so does the command: the machine adds the response
and nothing else. -/
theorem exec_of_commutes {i : Instr} {s t : State} (g : Block → Block) (h : exec i s = .next t)
    (hc : operationOf i s.toParams s.req (g s.toBlock) =
      (g (operationOf i s.toParams s.req s.toBlock).1, (operationOf i s.toParams s.req s.toBlock).2)) :
    exec i { s with toBlock := g s.toBlock } = .next { t with toBlock := g t.toBlock } := by
  rw [exec_next h, exec_eq_perform, State.perform_eq, hc]
  rfl

/-! ## The flags -/

theorem Block.writeReg_writeFlags (b : Block) (r : Reg) (v : Word) (f : BitVec 3) :
    (b.writeFlags f).writeReg r v = (b.writeReg r v).writeFlags f := by
  obtain ⟨_ | _, i⟩ := r <;> rfl

/-- Only WRFLG writes the flags. -/
theorem operationOf_flags {i : Instr} (hi : i ≠ .wrflg) (p : Params) (q : Request) (b : Block) :
    (operationOf i p q b).1.flags = b.flags := by
  obtain e | ⟨-, a, bs, e⟩ | ⟨r, v, -, e⟩ | ⟨e, -⟩ := operationOf_writes i p q
  · rw [e]
  · rw [e]
  · rw [e, Block.writeReg_flags]
  · exact absurd e hi

/-- An operation that neither reads nor writes the flags commutes with a change of them. -/
theorem operationOf_writeFlags {i : Instr} (hr : i ≠ .rdflg) (hw : i ≠ .wrflg) (p : Params) (q : Request) (b : Block)
    (f : BitVec 3) :
    operationOf i p q (b.writeFlags f) = ((operationOf i p q b).1.writeFlags f, (operationOf i p q b).2) := by
  refine Prod.ext ?_ (operationOf_response_congr p q rfl (fun _ _ => rfl) (absurd · hr))
  obtain e | ⟨-, a, bs, e⟩ | ⟨r, v, -, e⟩ | ⟨e, -⟩ := operationOf_writes i p q
  · simp only [e]
  · simp only [e]; rfl
  · simp only [e, Block.writeReg_writeFlags]
  · exact absurd e hw

/-- Settles O44: `operationOf_flags` for the writers, `operationOf_writeFlags` for the readers; WRFLG overwrites what
was there. -/
theorem onlyWrflgWritesAndOnlyRdflgReadsTheFlags : Obligations.OnlyWrflgWritesAndOnlyRdflgReadsTheFlags := by
  refine ⟨fun i s t hw h => ?_, fun i s t f hr hw h => ?_, fun s t f h => ?_⟩
  · rw [exec_next h]
    exact operationOf_flags hw ..
  · exact exec_of_commutes (·.writeFlags f) h (operationOf_writeFlags hr hw ..)
  · rw [exec_next h]
    rfl

/-! ## The registers -/

/-- The block with other contents of both register files. -/
def Block.setRegs (b : Block) (d a : Vector Word 8) : Block := { b with dregs := d, aregs := a }

/-- Only WRREG and SETTXT write a register. -/
theorem operationOf_readReg {i : Instr} (hw : ∀ r, i ≠ .wrreg r) (ht : ∀ r, i ≠ .settxt r) (p : Params) (q : Request)
    (b : Block) (r : Reg) : (operationOf i p q b).1.readReg r = b.readReg r := by
  obtain e | ⟨-, a, bs, e⟩ | ⟨r', v, e | e, -⟩ | ⟨-, f, e⟩ := operationOf_writes i p q
  · rw [e]
  · rw [e]; rfl
  · exact absurd e (hw r')
  · exact absurd e (ht r')
  · rw [e, Block.writeFlags_readReg]

/-- An operation that neither reads nor writes a register commutes with a change of both files. -/
theorem operationOf_setRegs {i : Instr} (hr : ∀ r, i ≠ .rdreg r) (hv : ∀ r, i ≠ .valstr r) (hw : ∀ r, i ≠ .wrreg r)
    (ht : ∀ r, i ≠ .settxt r) (p : Params) (q : Request) (b : Block) (d a : Vector Word 8) :
    operationOf i p q (b.setRegs d a) = ((operationOf i p q b).1.setRegs d a, (operationOf i p q b).2) := by
  refine Prod.ext ?_ (operationOf_response_congr p q rfl (fun r h => ?_) fun _ => rfl)
  · obtain e | ⟨-, k, bs, e⟩ | ⟨r, v, e | e, -⟩ | ⟨-, f, e⟩ := operationOf_writes i p q
    · simp only [e]
    · simp only [e]; rfl
    · exact absurd e (hw r)
    · exact absurd e (ht r)
    · simp only [e]; rfl
  · exact h.elim (absurd · (hr r)) (absurd · (hv r))

/-- Settles O45: `operationOf_readReg` for the writers, `operationOf_setRegs` for the readers, and for WRREG and SETTXT
that they write one value whatever the block holds. -/
theorem onlyRegisterCommandsTouchRegisters : Obligations.OnlyRegisterCommandsTouchRegisters := by
  refine ⟨fun i s t hw ht h r => ?_, fun i s t d a hr hv hw ht h => ?_, fun i s t d a r hi h => ?_⟩
  · rw [exec_next h]
    exact operationOf_readReg hw ht ..
  · exact exec_of_commutes (·.setRegs d a) h (operationOf_setRegs hr hv hw ht ..)
  · obtain ⟨v, x, e⟩ := operationOf_registerWrite hi s.toParams s.req
    exact ⟨_, exec_eq_perform .., by simp [exec_next h, e], by simp [exec_next h, e]⟩

end Sys2Proof.Machine
end

section
/-! SUPPORT. Construction (R32, R180). -/

namespace Sys2Proof.Machine

/-- After construction each register holds REG_INIT (R32). -/
@[simp] theorem Block.construct_readReg (init : RegFile → Fin 8 → Word) (r : Reg) :
    (Block.construct init).readReg r = init r.file r.index := by
  obtain ⟨_ | _, i⟩ := r <;> simp [Block.construct, Block.readReg]

/-- Settles O11: the constructed memory lists no byte, and an unlisted byte reads 0x00. -/
theorem constructionState : Obligations.ConstructionState := fun _ init _ =>
  ⟨fun _ => rfl, rfl, Block.construct_readReg init, rfl⟩

end Sys2Proof.Machine
end

section
/-! SUPPORT. What no command and no step changes: the construction parameters (R42), and, for a command that stores
nothing, the memory (R107). -/

namespace Sys2Proof.Machine

/-- What a step can do, said once: with no request it changes nothing, and with one it puts the request on the ports
and answers what the block's serving of it gives (R60, R188). -/
theorem step_next {s t : State} (h : step s = .next t) :
    (s.script = [] ∧ t = s) ∨
    ∃ q rest, s.script = q :: rest ∧ t = (s.accept q rest).answer (serveRequest s.toParams q s.toBlock) := by
  cases hs : s.script with
  | nil =>
    rw [step, hs] at h
    exact .inl ⟨rfl, (Host.Outcome.next.inj h).symm⟩
  | cons q rest =>
    rw [step_eq_perform_serveRequest hs, State.perform_eq] at h
    exact .inr ⟨q, rest, rfl, (Host.Outcome.next.inj h).symm⟩

theorem exec_toParams {i : Instr} {s t : State} (h : exec i s = .next t) : t.toParams = s.toParams := by
  rw [exec_next h, State.answer_toParams]

theorem step_toParams {s t : State} (h : step s = .next t) : t.toParams = s.toParams := by
  obtain ⟨-, rfl⟩ | ⟨q, rest, -, rfl⟩ := step_next h
  · rfl
  · rw [State.answer_toParams, State.accept_toParams]

/-- Settles O9: answering a request keeps the two parameters, which no operation can write. -/
theorem constructionParametersNeverChange : Obligations.ConstructionParametersNeverChange :=
  ⟨fun _ _ _ h => Params.mk.inj (exec_toParams h), fun _ _ h => Params.mk.inj (step_toParams h)⟩

/-- Only the stores write the memory. -/
theorem operationOf_mem {i : Instr} (hi : i ∉ storeOps) (p : Params) (q : Request) (b : Block) :
    (operationOf i p q b).1.mem = b.mem := by
  obtain e | ⟨hs, -⟩ | ⟨r, v, -, e⟩ | ⟨-, f, e⟩ := operationOf_writes i p q
  · rw [e]
  · exact absurd hs hi
  · rw [e, Block.writeReg_mem]
  · rw [e, Block.writeFlags_mem]

/-- Settles O28: `operationOf_mem` for the bytes; the ports, the script and the parameters no command writes. -/
theorem nonStoresLeaveEveryByte : Obligations.NonStoresLeaveEveryByte := by
  intro i s t hi h
  rw [exec_next h]
  refine ⟨fun x => ?_, rfl, rfl, rfl, rfl⟩
  rw [State.answer_toBlock, operationOf_mem hi]

end Sys2Proof.Machine
end

section
/-! SUPPORT. A read after a write (R53, R185): what a load inside the bytes of a store answers, and what a store does to
a memory that already holds its bytes. -/

namespace Sys2Proof.Machine

/-! ## A load after a store -/

/-- A load that reads nothing but bytes of a store answers those bytes, composed (R44, R53). -/
theorem load_within_store {size : MemSize} {a k n : Nat} {bs : List Byte} {b : Block} (hw : Memory.wf b.mem = true)
    (hs : a + bs.length ≤ size.val) (hn : k + n ≤ bs.length) :
    load size (a + k) n (store size a bs b).1 =
      ((store size a bs b).1, Response.word (composeBytes ((bs.drop k).take n))) := by
  have stored : (List.range n).map (fun j => Memory.read (store size a bs b).1.mem (a + k + j)) =
      (bs.drop k).take n := by
    refine List.ext_getElem (by simp; omega) fun j hj _ => ?_
    have inside : j < n := by simpa using hj
    simp only [List.getElem_map, List.getElem_range, List.getElem_take, List.getElem_drop, store_fst, Nat.add_assoc]
    exact read_memWrite_written hw (by omega) (by omega)
  rw [load_inside (by omega), stored]

/-- A load of all the bytes of a store, by a request with the same address, answers them, composed (R53). -/
theorem load_store_same_address {size : MemSize} {q q' : Request} {bs : List Byte} {b : Block} (hq : q'.p0 = q.p0)
    (hw : Memory.wf b.mem = true) (hs : q.address + bs.length ≤ size.val) :
    load size q'.address bs.length (store size q.address bs b).1 =
      ((store size q.address bs b).1, Response.word (composeBytes bs)) := by
  have address : q'.address = q.address := congrArg BitVec.toNat hq
  rw [address]
  simpa using load_within_store (k := 0) hw hs (Nat.le_of_eq (Nat.zero_add _))

/-! ## The values stored -/

/-- Byte k of a value, counted from the most significant (R82). -/
theorem bytesOf_take_one_drop (v : Word) (k : Fin 4) :
    ((bytesOf v).drop k.val).take 1 = [v.extractLsb' (24 - 8 * k.val) 8] := by
  match k with
  | 0 | 1 | 2 | 3 => rfl

/-- The byte STB stores is the low 8 bits (R101). -/
theorem composeBytes_storeByte (q : Request) : composeBytes q.storeByte = (q.p1.extractLsb' 0 8).zeroExtend 32 :=
  composeBytes_one _

/-- The half-word STH stores is the low 16 bits (R103). -/
theorem composeBytes_storeHalf (q : Request) : composeBytes q.storeHalf = (q.p1.extractLsb' 0 16).zeroExtend 32 :=
  (composeBytes_two _ _).trans
    (congrArg (BitVec.zeroExtend 32) (BitVec.extractLsb'_append_extractLsb'_eq_extractLsb' rfl))

/-- The word STW stores is the value (R105). -/
theorem composeBytes_storeWord (q : Request) : composeBytes q.storeWord = q.p1 :=
  composeBytes_bytesOf q.p1

/-! ## Read after write -/

/-- A command that answers a word and leaves the block as it is, on a request of its own: one OK response more, and
nothing else. -/
theorem exec_answers_word {i : Instr} {s : State} {q : Request} {v : Word}
    (h : operationOf i s.toParams q s.toBlock = (s.toBlock, Response.word v)) :
    exec i { s with req := q } = .next { s with
      req := q, responses := s.responses ++ [⟨.ok, 0, v, false, false, []⟩] } := by
  rw [exec_eq_perform, State.perform_eq, h]
  rfl

/-- Settles O30: `load_within_store` at one byte; the address does not wrap, since the word is inside the memory. -/
theorem storedWordReadsBackByByte : Obligations.StoredWordReadsBackByByte := by
  intro s k hw hs
  have address : (s.req.p0 + BitVec.ofNat 32 k.val).toNat = s.req.p0.toNat + k.val := by
    rw [BitVec.toNat_add, BitVec.toNat_ofNat]
    omega
  refine ⟨_, _, exec_eq_perform .stw s, exec_answers_word (q := { s.req with p0 := _ }) ?_, rfl⟩
  have byte := load_within_store (a := s.req.address) (bs := s.req.storeWord) (n := 1) hw hs k.isLt
  rw [Request.storeWord, bytesOf_take_one_drop, composeBytes_one, Request.address, ← address] at byte
  exact byte

/-- Settles O31: what a write leaves in a register, in the flags or, by `load_store_same_address`, in the memory. -/
theorem readAfterWriteGivesTheValue : Obligations.ReadAfterWriteGivesTheValue := by
  refine ⟨fun s r q => ?_, fun s q => ?_, fun s q hw hs hq => ?_, fun s q hw hs hq => ?_, fun s q hw hs hq => ?_⟩
  · refine ⟨_, exec_eq_perform .., exec_answers_word ?_⟩
    exact congrArg (fun v => (_, Response.word v)) (Block.readReg_writeReg_same ..)
  · exact ⟨_, exec_eq_perform .., exec_answers_word rfl⟩
  · exact ⟨_, exec_eq_perform .., exec_answers_word
      (composeBytes_storeByte s.req ▸ load_store_same_address (bs := s.req.storeByte) hq hw hs)⟩
  · exact ⟨_, exec_eq_perform .., exec_answers_word
      (composeBytes_storeHalf s.req ▸ load_store_same_address (bs := s.req.storeHalf) hq hw hs)⟩
  · exact ⟨_, exec_eq_perform .., exec_answers_word
      (composeBytes_storeWord s.req ▸ load_store_same_address (bs := s.req.storeWord) hq hw hs)⟩

/-! ## A repeated store -/

/-- Writing the same bytes again changes nothing, also when some of them are outside the memory (R50). -/
theorem memWrite_twice {size a : Nat} {bs : List Byte} {m : Memory} (h : Memory.wf m = true) :
    (memWrite size a bs (memWrite size a bs m).1).1 = (memWrite size a bs m).1 := by
  have once : Memory.wf (memWrite size a bs m).1 = true := memWrite_wf h
  refine Memory.ext (memWrite_wf once) once fun x => ?_
  by_cases hx : a ≤ x ∧ x < a + bs.length ∧ x < size
  · rw [read_memWrite once, read_memWrite h, if_pos hx, if_pos hx]
  · exact read_memWrite_other once hx

/-- A store writes the same bytes to the same addresses, whatever the block holds. -/
theorem operationOf_store_mem {i : Instr} (hi : i ∈ storeOps) (p : Params) (q : Request) :
    ∃ bs, ∀ b, (operationOf i p q b).1.mem = (memWrite p.memSize.val q.address bs b.mem).1 := by
  simp only [storeOps, List.mem_cons, List.not_mem_nil, or_false] at hi
  rcases hi with rfl | rfl | rfl <;> exact ⟨_, fun b => congrArg Block.mem (store_fst ..)⟩

/-- Settles O32: the second execution writes the same bytes, since the request and MEM_SIZE are the same. -/
theorem storingTwiceIsStoringOnce : Obligations.StoringTwiceIsStoringOnce := by
  intro i hi s t u hw ht hu
  obtain ⟨bs, writes⟩ := operationOf_store_mem hi s.toParams s.req
  rw [exec_next hu, exec_next ht]
  simp only [State.answer_toBlock, State.answer_toParams, State.answer_req, writes]
  exact memWrite_twice hw

end Sys2Proof.Machine
end

section
/-! SUPPORT. The encoding (R61, R62, R67, R69): a word and its fields are the same thing, the mask and match of a format
test the fields it does not use, and building a command from its fields undoes writing them. -/

namespace Sys2Proof

/-! ## A word and its fields (R61) -/

@[simp] theorem Fields.ofWord_toWord (c : Fields) : Fields.ofWord c.toWord = c := by
  obtain ⟨op, f, r, h, z⟩ := c
  rw [Fields.ofWord, Fields.toWord, Fields.mk.injEq]
  have above {n m : Nat} {x : BitVec n} {y : BitVec m} {start len : Nat} (hs : m ≤ start) :
      (x ++ y).extractLsb' start len = x.extractLsb' (start - m) len := BitVec.extractLsb'_append_eq_of_le hs
  refine ⟨?_, ?_, ?_, ?_, BitVec.extractLsb'_append_eq_right⟩
  · exact (above (by decide)).trans <| (above (by decide)).trans <| (above (by decide)).trans
      BitVec.extractLsb'_append_eq_left
  · exact (above (by decide)).trans <| (above (by decide)).trans <| (above (by decide)).trans
      BitVec.extractLsb'_append_eq_right
  · exact (above (by decide)).trans <| (above (by decide)).trans BitVec.extractLsb'_append_eq_right
  · exact (above (by decide)).trans BitVec.extractLsb'_append_eq_right

@[simp] theorem Fields.toWord_ofWord (w : Word) : (Fields.ofWord w).toWord = w := by
  have join {a b n m : Nat} (h : a = b + m) : w.extractLsb' a n ++ w.extractLsb' b m = w.extractLsb' b (n + m) :=
    BitVec.extractLsb'_append_extractLsb'_eq_extractLsb' h
  have opF : w.extractLsb' 24 8 ++ w.extractLsb' 23 1 = w.extractLsb' 23 9 := join rfl
  have opFR : w.extractLsb' 23 9 ++ w.extractLsb' 20 3 = w.extractLsb' 20 12 := join rfl
  have opFRH : w.extractLsb' 20 12 ++ w.extractLsb' 18 2 = w.extractLsb' 18 14 := join rfl
  have all : w.extractLsb' 18 14 ++ w.extractLsb' 0 18 = w.extractLsb' 0 32 := join rfl
  simp only [Fields.toWord, Fields.ofWord, opF, opFR, opFRH, all, BitVec.extractLsb'_eq_self]

/-- Two words are equal when their fields are. -/
theorem Fields.ofWord_inj {w w' : Word} : Fields.ofWord w = Fields.ofWord w' ↔ w = w' :=
  (Function.LeftInverse.injective Fields.toWord_ofWord).eq_iff

/-! ## The rows of the table (R66) -/

theorem Mnemonic.ofOp_op (m : Mnemonic) : Mnemonic.ofOp m.op = some m := by
  cases m <;> rfl

/-- The row of an OP is the one that has it in its column. -/
theorem Mnemonic.ofOp_eq_some_iff {op : BitVec 8} {m : Mnemonic} : Mnemonic.ofOp op = some m ↔ m.op = op :=
  ⟨fun h => eq_of_beq (List.find?_some h :), fun h => h ▸ Mnemonic.ofOp_op m⟩

/-- An OP that is not in the column has no row. -/
theorem Mnemonic.ofOp_eq_none {op : BitVec 8} (h : op ∉ Mnemonic.all.map Mnemonic.op) : Mnemonic.ofOp op = none :=
  List.find?_eq_none.mpr fun m hm e => h (List.mem_map.mpr ⟨m, hm, eq_of_beq e⟩)

/-! ## Mask and match (R62) -/

/-- The fields of a format's mask: ones in OP and in every field the format does not use. -/
def Format.maskFields : Format → Fields
  | .CN => ⟨.allOnes 8, .allOnes 1, .allOnes 3, .allOnes 2, .allOnes 18⟩
  | .CR => ⟨.allOnes 8, 0, 0, .allOnes 2, .allOnes 18⟩
  | .CH => ⟨.allOnes 8, .allOnes 1, .allOnes 3, 0, .allOnes 18⟩

theorem Format.ofWord_mask (k : Format) : Fields.ofWord k.mask = k.maskFields := by
  cases k <;> rfl

/-- The match of a row is its OP, and zero in every other field. -/
theorem Mnemonic.ofWord_matchWord (m : Mnemonic) : Fields.ofWord m.matchWord = Fields.ofOp m := by
  cases m <;> rfl

/-- The fields of a masked word are the masked fields. -/
theorem Fields.ofWord_and (w v : Word) :
    Fields.ofWord (w &&& v) =
      ⟨(Fields.ofWord w).op &&& (Fields.ofWord v).op, (Fields.ofWord w).f &&& (Fields.ofWord v).f,
        (Fields.ofWord w).r &&& (Fields.ofWord v).r, (Fields.ofWord w).h &&& (Fields.ofWord v).h,
        (Fields.ofWord w).z &&& (Fields.ofWord v).z⟩ := by
  simp only [Fields.ofWord, BitVec.extractLsb'_and]

/-- The mask and match of R62 test what R67 says of the fields: the OP is the row's, and every field the format does
not use is zero. -/
theorem Mnemonic.mask_match_iff (m : Mnemonic) (w : Word) :
    w &&& m.format.mask = m.matchWord ↔
      (Fields.ofWord w).op = m.op ∧ (Fields.ofWord w).unusedZero m.format = true := by
  rw [← Fields.ofWord_inj, Fields.ofWord_and, Mnemonic.ofWord_matchWord, Format.ofWord_mask, Fields.ofOp,
    Fields.mk.injEq]
  cases m.format with
  | CN | CR | CH =>
    simp only [Format.maskFields, Fields.unusedZero, BitVec.and_allOnes, BitVec.ofNat_eq_ofNat, BitVec.and_zero,
      Bool.and_eq_true, beq_iff_eq, and_assoc, true_and]

/-! ## Operands (R65) -/

@[simp] theorem RegFile.ofBit_toBit (f : RegFile) : RegFile.ofBit f.toBit = f := by
  cases f <;> rfl

@[simp] theorem RegFile.toBit_ofBit (f : BitVec 1) : (RegFile.ofBit f).toBit = f := by
  revert f; decide

@[simp] theorem HexFlag.ofBits_toBits (h : HexFlag) : HexFlag.ofBits h.toBits = h := by
  cases h <;> rfl

@[simp] theorem HexFlag.toBits_ofBits (h : BitVec 2) : (HexFlag.ofBits h).toBits = h := by
  revert h; decide

/-- A register reads back from the fields written for it. -/
@[simp] theorem Fields.reg_ofReg (m : Mnemonic) (r : Reg) : (Fields.ofReg m r).reg = r := by
  simp [Fields.reg, Fields.ofReg]

/-- A HexFlag reads back from the fields written for it. -/
@[simp] theorem Fields.hexFlag_ofHexFlag (m : Mnemonic) (h : HexFlag) : (Fields.ofHexFlag m h).hexFlag = h := by
  simp [Fields.hexFlag, Fields.ofHexFlag]

/-- Building a command from its own fields gives it back. -/
theorem Instr.build_fields (i : Instr) : i.mnemonic.build i.fields.reg i.fields.hexFlag = i := by
  cases i with
  | rdreg r | wrreg r | settxt r | name r | valstr r => simp [Instr.mnemonic, Mnemonic.build, Instr.fields]
  | hexstr h => simp [Instr.mnemonic, Mnemonic.build, Instr.fields]
  | _ => rfl

/-- The fields with nothing but an OP are a row's when the others are zero. -/
theorem Fields.ofOp_eq {c : Fields} {m : Mnemonic} (ho : m.op = c.op) (hz : c.unusedZero .CN = true) :
    Fields.ofOp m = c := by
  simp only [Fields.unusedZero, Bool.and_eq_true, beq_iff_eq] at hz
  obtain ⟨⟨⟨hf, hr⟩, hh⟩, hz⟩ := hz
  rw [Fields.ofOp, ho, ← hf, ← hr, ← hh, ← hz]

theorem Fields.ofReg_eq {c : Fields} {m : Mnemonic} (ho : m.op = c.op) (hz : c.unusedZero .CR = true) :
    Fields.ofReg m c.reg = c := by
  obtain ⟨op, f, r, h, z⟩ := c
  simp only [Fields.unusedZero, Bool.and_eq_true, beq_iff_eq] at hz
  obtain ⟨rfl, rfl⟩ := hz
  simp [Fields.ofReg, Fields.reg, ho]

theorem Fields.ofHexFlag_eq {c : Fields} {m : Mnemonic} (ho : m.op = c.op) (hz : c.unusedZero .CH = true) :
    Fields.ofHexFlag m c.hexFlag = c := by
  obtain ⟨op, f, r, h, z⟩ := c
  simp only [Fields.unusedZero, Bool.and_eq_true, beq_iff_eq] at hz
  obtain ⟨⟨rfl, rfl⟩, rfl⟩ := hz
  simp [Fields.ofHexFlag, Fields.hexFlag, ho]

/-- The command built from legal fields has those fields. -/
theorem Mnemonic.fields_build {m : Mnemonic} {c : Fields} (ho : m.op = c.op) (hz : c.unusedZero m.format = true) :
    (m.build c.reg c.hexFlag).fields = c := by
  cases m with
  | RDREG | WRREG | SETTXT | NAME | VALSTR => exact Fields.ofReg_eq ho hz
  | HEXSTR => exact Fields.ofHexFlag_eq ho hz
  | _ => exact Fields.ofOp_eq ho hz

/-! ## Decoding (R67) -/

theorem Fields.wellFormed_iff {c : Fields} :
    c.wellFormed = true ↔ ∃ m, Mnemonic.ofOp c.op = some m ∧ c.unusedZero m.format = true := by
  rw [Fields.wellFormed]
  cases Mnemonic.ofOp c.op <;> simp

/-- What a decoded word is, said once: its OP has a row, the fields the row's format does not use are zero, and the
command is the row's with the operands of the word. -/
theorem decode_eq_ok_iff {w : Word} {i : Instr} :
    decode w = .ok i ↔ ∃ m, Mnemonic.ofOp (Fields.ofWord w).op = some m ∧
      (Fields.ofWord w).unusedZero m.format = true ∧
      m.build (Fields.ofWord w).reg (Fields.ofWord w).hexFlag = i := by
  rw [decode]
  cases ho : Mnemonic.ofOp (Fields.ofWord w).op with
  | none => simp
  | some m =>
    have hop := Mnemonic.ofOp_eq_some_iff.mp ho
    simp only [Mnemonic.mask_match_iff, hop, true_and, Option.some.injEq, exists_eq_left']
    split <;> simp [*]

/-- A word is legal exactly when its fields are (R67). -/
theorem exists_decode_eq_ok_iff {w : Word} : (∃ i, decode w = .ok i) ↔ (Fields.ofWord w).wellFormed = true := by
  simp only [decode_eq_ok_iff, Fields.wellFormed_iff]
  exact ⟨fun ⟨_, m, ho, hz, _⟩ => ⟨m, ho, hz⟩, fun ⟨m, ho, hz⟩ => ⟨_, m, ho, hz, rfl⟩⟩

theorem decode_eq_error {w : Word} (h : (Fields.ofWord w).wellFormed = false) : ∃ e, decode w = .error e := by
  cases hd : decode w with
  | ok i => exact absurd (exists_decode_eq_ok_iff.mp ⟨i, hd⟩) (by simp [h])
  | error e => exact ⟨e, rfl⟩

/-- The OP of a command's fields is its row's (R66). -/
theorem Instr.fields_op (i : Instr) : i.fields.op = i.mnemonic.op := by
  cases i <;> rfl

theorem decode_encode {i : Instr} (h : i.wellFormed = true) : decode (encode i) = .ok i := by
  have row : Mnemonic.ofOp i.fields.op = some i.mnemonic := Mnemonic.ofOp_eq_some_iff.mpr (Instr.fields_op i).symm
  obtain ⟨m, ho, hz⟩ := Fields.wellFormed_iff.mp h
  obtain rfl : i.mnemonic = m := Option.some.inj (row.symm.trans ho)
  rw [decode_eq_ok_iff, encode, Fields.ofWord_toWord]
  exact ⟨i.mnemonic, row, hz, Instr.build_fields i⟩

/-- Settles O2: the fields of the word are the command's, and the command is built from its own fields. -/
theorem decodeOfEncodeIsTheCommand : Obligations.DecodeOfEncodeIsTheCommand := fun _ => decode_encode

/-- Settles O3: the decoded command is built from the word's legal fields, so they are its own. -/
theorem encodeOfDecodeIsTheWord : Obligations.EncodeOfDecodeIsTheWord := by
  intro w i h
  obtain ⟨m, ho, hz, rfl⟩ := decode_eq_ok_iff.mp h
  rw [encode, Mnemonic.fields_build (Mnemonic.ofOp_eq_some_iff.mp ho) hz, Fields.toWord_ofWord]

/-- Settles O5: the 26 numbers are the column OP, and every format leaves Z unused. -/
theorem reservedOpcodesAndReservedFieldAreIllegal : Obligations.ReservedOpcodesAndReservedFieldAreIllegal := by
  refine ⟨fun w hw => ?_, fun w i hz h => ?_⟩
  · have noRow : Mnemonic.ofOp (Fields.ofWord w).op = none := Mnemonic.ofOp_eq_none hw
    rw [decode, noRow]
  · obtain ⟨m, -, unused, -⟩ := decode_eq_ok_iff.mp h
    have zero : (Fields.ofWord w).z = 0 := by
      cases hm : m.format with
      | CN | CR | CH =>
        simp only [hm, Fields.unusedZero, Bool.and_eq_true, beq_iff_eq] at unused
        exact unused.2
    exact hz zero

end Sys2Proof

namespace Sys2Proof.Machine

/-- Settles O4: a word that is not legal decodes to an error, and the block answers it by `opIllegal`. -/
theorem legalWordsDecodeAndOthersAreIllegal : Obligations.LegalWordsDecodeAndOthersAreIllegal := by
  refine ⟨fun w => exists_decode_eq_ok_iff, fun s q rest hs illegal => ?_⟩
  obtain ⟨e, he⟩ := decode_eq_error illegal
  rw [step_eq_perform_serveRequest hs, State.perform_eq, State.accept_req, serveRequest_of_decode_error he]
  rfl

/-- Settles O6: a step performs the block's serving of the request, which is the decoded command's operation. -/
theorem stepRunsTheDecodedCommand : Obligations.StepRunsTheDecodedCommand := by
  intro s q rest i hs hd _
  rw [step_eq_perform_serveRequest hs, exec_eq_perform, State.perform_eq, State.accept_req, serveRequest_of_decode_ok hd]
  rfl

end Sys2Proof.Machine
end

section
/-! SUPPORT. The port columns of the table (R63, R64, R66): a response shows nothing on the ports outside its row's kind,
and an operation reads no port outside its row's list. -/

namespace Sys2Proof.Machine

/-! ## Result kinds (R64) -/

theorem load_ofKind (size : MemSize) (a n : Nat) (b : Block) : (load size a n b).2.ofKind .W32 := by
  rw [load_eq, loadResponse]
  cases memRead size.val b.mem a n with
  | ok | error => exact ⟨rfl, rfl, rfl⟩

theorem store_ofKind (size : MemSize) (a : Nat) (bs : List Byte) (b : Block) :
    (store size a bs b).2.ofKind .none := by
  rw [store_eq]
  cases (memWrite size.val a bs b.mem).2 with
  | none | some => exact ⟨rfl, rfl, rfl, rfl⟩

/-- The response of an operation shows nothing on the ports outside its row's kind: an error shows no result at all
(R64, R66). -/
theorem operationOf_ofKind (i : Instr) (p : Params) (q : Request) (b : Block) :
    (operationOf i p q b).2.ofKind i.mnemonic.kind := by
  cases i with
  | ldb | ldh | ldw | ldbx => exact load_ofKind p.memSize _ _ b
  | stb | sth | stw => exact store_ofKind p.memSize _ _ b
  | parse =>
    rw [operationOf, opParse_eq]
    cases parseText p.parseOverflow q.text with
    | none | some => exact ⟨rfl, rfl, rfl⟩
  | settxt r =>
    rw [operationOf, opSettxt_eq]
    exact ⟨rfl, rfl, rfl⟩
  | wrreg | wrflg => exact ⟨rfl, rfl, rfl, rfl⟩
  | _ => exact ⟨rfl, rfl, rfl⟩

/-- Settles O48: the response is the operation's, which has its row's kind, and is well shaped, so OK has no address. -/
theorem resultsHaveTheKindOfTheTable : Obligations.ResultsHaveTheKindOfTheTable := by
  intro i s t r h hr hok
  rw [exec_next h, State.answer_responses, List.append_cancel_left_eq, List.singleton_inj] at hr
  subst hr
  obtain ⟨-, -, noAddress, -⟩ := operationOf_wellShaped i s.toParams s.req s.toBlock
  exact ⟨noAddress (by simp [hok]), operationOf_ofKind ..⟩

/-! ## Ports (R63) -/

/-- An operation does the same on requests that agree on the ports of its row: with those equal, what is left to differ is
not read (R63, R66). -/
theorem operationOf_congr {i : Instr} {q q' : Request} (h : q.agreeOn i.mnemonic.ports q') (p : Params) (b : Block) :
    operationOf i p q b = operationOf i p q' b := by
  obtain ⟨cmd, p0, p1, p2, text⟩ := q
  obtain ⟨cmd', p0', p1', p2', text'⟩ := q'
  obtain ⟨h0, h1, h2, ht⟩ := h
  cases i with
  | rdreg | rdflg | name | valstr => rfl
  | ldb | ldh | ldw =>
    obtain rfl : p0 = p0' := h0 (.head _)
    rfl
  | stb | sth | stw =>
    obtain rfl : p0 = p0' := h0 (.head _)
    obtain rfl : p1 = p1' := h1 (.tail _ (.head _))
    rfl
  | ldbx =>
    obtain rfl : p0 = p0' := h0 (.head _)
    obtain rfl : p1 = p1' := h1 (.tail _ (.head _))
    obtain rfl : p2 = p2' := h2 (.tail _ (.tail _ (.head _)))
    rfl
  | parse | settxt =>
    obtain rfl : text = text' := ht (.head _)
    rfl
  | _ =>
    obtain rfl : p1 = p1' := h1 (.head _)
    rfl

/-- Settles O49: the operation does the same on both requests, and answering leaves the ports as they are. -/
theorem unusedPortsAreIgnored : Obligations.UnusedPortsAreIgnored := by
  intro i s q q' h
  refine ⟨s.answer (operationOf i s.toParams q s.toBlock), exec_eq_perform .., ?_⟩
  rw [operationOf_congr h]
  exact exec_eq_perform ..

end Sys2Proof.Machine
end

section
/-! SUPPORT. The aliases and pseudo-operations (R71): each command the host sends does its operation on the block and adds
one response; the host's script is as before (log 19). -/

namespace Sys2Proof.Machine

open Sys2Proof.Laws.FieldsAreLegal

/-- The host sends a command: its request goes to the ports, the script stays, and the block does its operation (R186). -/
theorem send_command {i : Instr} (h : i.wellFormed = true) (v : Word) (s : State) :
    send (valueCommand i v) s = .next ((s.accept (valueCommand i v) s.script).answer
      (operationOf i s.toParams (valueCommand i v) s.toBlock)) := by
  have legal : decode (valueCommand i v).cmd = .ok i := decode_encode h
  rw [send, step_eq_perform_serveRequest rfl, State.perform_eq]
  exact congrArg (Host.Outcome.next <| State.answer _ ·) (serveRequest_of_decode_ok legal ..)

/-- The host takes the result of the response just given. -/
@[simp] theorem State.lastResult_answer (s : State) (x : Block × Response) : (s.answer x).lastResult = x.2.rd := by
  simp [State.lastResult]

/-- The host goes on with the next command when the block answered. -/
@[simp] theorem andThen_next (s : State) (k : State → Outcome) : andThen (.next s) k = k s := rfl

/-- Bit 31 is set exactly when the signed view is negative (R86). -/
theorem getLsbD_31_eq_decide_toInt_neg (v : Word) : v.getLsbD 31 = decide (v.toInt < 0) :=
  (BitVec.msb_eq_getLsbD_last v).symm.trans BitVec.msb_eq_toInt

/-- The one's complement plus one is the negation (R88). -/
theorem xor_ones_add_one_eq_neg (v : Word) : (v ^^^ 0xFFFFFFFF) + 1 = -v :=
  (congrArg (· + 1) BitVec.xor_allOnes).trans (BitVec.neg_eq_not_add v).symm

/-- WRREG, by which CLR, MOV and NEGREG end, leaves its operand in the register and nothing else changed (R121). -/
theorem send_wrreg (r : Reg) (v : Word) (s : State) :
    ∃ t, send (valueCommand (.wrreg r) v) s = .next t ∧ t.script = s.script ∧ t.readReg r = v ∧
      (∀ r', r' ≠ r → t.readReg r' = s.readReg r') ∧ t.mem = s.mem ∧ t.flags = s.flags ∧
      t.responses.length = s.responses.length + 1 :=
  ⟨_, send_command (wrreg r).2 v s, rfl, Block.readReg_writeReg_same .., fun _ => Block.readReg_writeReg_other _ _,
    Block.writeReg_mem .., Block.writeReg_flags .., List.length_append⟩

/-- Settles O50: each expansion is a chain of `send_command`, and `lastResult_answer` says what the host moves on. -/
theorem pseudoOperationsDoWhatTheyExpandTo : Obligations.PseudoOperationsDoWhatTheyExpandTo := by
  refine ⟨fun s v => ?_, fun s r => send_wrreg r 0 s, fun s => ?_, fun s rd rs => ?_, fun s r => ?_⟩
  · refine ⟨_, send_command signbit.2 v s, rfl, rfl, rfl, rfl, rfl, ?_⟩
    rw [← getLsbD_31_eq_decide_toInt_neg]
    rfl
  · exact ⟨_, send_command wrflg.2 0 s, rfl, rfl, rfl, rfl, rfl, List.length_append⟩
  · rw [runPseudo, runMov, send_command (rdreg rs).2, andThen_next, State.lastResult_answer]
    exact (send_wrreg rd _ _).imp fun t ⟨sent, script, reg, others, mem, flags, count⟩ =>
      ⟨sent, script, reg, others, mem, flags, count.trans (by simp)⟩
  · rw [runPseudo, runNegreg, send_command (rdreg r).2, andThen_next, State.lastResult_answer, send_command twosc.2,
      andThen_next, State.lastResult_answer]
    exact (send_wrreg r _ _).imp fun t ⟨sent, script, reg, others, mem, flags, count⟩ =>
      ⟨sent, script, reg.trans (xor_ones_add_one_eq_neg _), others, mem, flags, count.trans (by simp)⟩

end Sys2Proof.Machine
end

section
/-! SUPPORT. Formatted values (R137, R138): the digits formatting writes, the number they stand for, and how the
assembler's literal reader, which takes either case, reads them back (R70, R146). -/

namespace Sys2Proof.Machine

/-! ## The digits formatting writes -/

/-- The natural digits of a number, in lowercase (R137). -/
def naturalText (fuel n : Nat) : Text := (naturalDigits fuel n).map lowerDigit

/-- The digits of a formatted value: the natural ones behind zeros up to a width of 8 (R138). -/
def hexDigits (v : Word) : Text :=
  List.replicate (8 - (naturalText 8 v.toNat).length) '0' ++ naturalText 8 v.toNat

/-- A formatted value is the text of the HexFlag and the digits (R138). -/
theorem hexString_eq (v : Word) (h : HexFlag) : hexString v h = hexFlagText h ++ hexDigits v :=
  List.append_assoc ..

theorem naturalDigits_succ (fuel n : Nat) :
    naturalDigits (fuel + 1) n = if n < 16 then [n] else naturalDigits fuel (n / 16) ++ [n % 16] := rfl

theorem naturalDigits_lt {fuel n d : Nat} (h : d ∈ naturalDigits fuel n) : d < 16 := by
  induction fuel generalizing n with
  | zero => exact absurd h List.not_mem_nil
  | succ fuel ih =>
    rw [naturalDigits_succ] at h
    split at h
    · rwa [List.mem_singleton.mp h]
    · obtain h | h := List.mem_append.mp h
      · exact ih h
      · rw [List.mem_singleton.mp h]
        exact Nat.mod_lt _ (by decide)

theorem naturalDigits_length_le (fuel n : Nat) : (naturalDigits fuel n).length ≤ fuel := by
  induction fuel generalizing n with
  | zero => exact Nat.le_refl 0
  | succ fuel ih =>
    rw [naturalDigits_succ]
    split
    · exact Nat.le_add_left 1 fuel
    · rw [List.length_append]
      exact Nat.succ_le_succ (ih _)

theorem lowerDigit_mem {d : Nat} (h : d < 16) : lowerDigit d ∈ lowerDigits := by
  revert d; decide

/-- A formatted value has eight digits (R138). -/
@[simp] theorem hexDigits_length (v : Word) : (hexDigits v).length = 8 := by
  have := naturalDigits_length_le 8 v.toNat
  simp only [hexDigits, naturalText, List.length_append, List.length_replicate, List.length_map]
  omega

/-- Formatting writes nothing but lowercase hex digits (R137). -/
theorem mem_lowerDigits_of_mem_hexDigits {v : Word} {c : Char} (h : c ∈ hexDigits v) : c ∈ lowerDigits := by
  obtain h | h := List.mem_append.mp h
  · rw [List.eq_of_mem_replicate h]
    decide
  · obtain ⟨d, hd, rfl⟩ := List.mem_map.mp h
    exact lowerDigit_mem (naturalDigits_lt hd)

/-! ## The number they stand for (R143) -/

theorem hexNumber_concat (ds : Text) (c : Char) : hexNumber (ds ++ [c]) = hexNumber ds * 16 + digitValue c := by
  rw [hexNumber, List.foldl_append]; rfl

/-- Zeros before a digit string do not change its number. -/
theorem hexNumber_zeros (k : Nat) (ds : Text) : hexNumber (List.replicate k '0' ++ ds) = hexNumber ds := by
  induction k with
  | zero => rfl
  | succ k ih => exact ih

theorem digitValue_upperHex_lowerDigit {d : Nat} (h : d < 16) : digitValue (upperHex (lowerDigit d)) = d := by
  revert d; decide

/-- In uppercase, the natural digits of a number stand for it. -/
theorem hexNumber_naturalText {fuel n : Nat} (h : n < 16 ^ fuel) :
    hexNumber ((naturalText fuel n).map upperHex) = n := by
  induction fuel generalizing n with
  | zero => exact (Nat.lt_one_iff.mp h).symm
  | succ fuel ih =>
    rw [naturalText, naturalDigits_succ]
    split
    next small =>
      exact (Nat.zero_add _).trans (digitValue_upperHex_lowerDigit small)
    next =>
      have high := ih (n := n / 16) (Nat.div_lt_of_lt_mul (by rwa [Nat.pow_succ'] at h))
      rw [naturalText] at high
      rw [List.map_append, List.map_append, List.map_singleton, List.map_singleton, hexNumber_concat, high,
        digitValue_upperHex_lowerDigit (Nat.mod_lt n (by decide))]
      omega

/-- In uppercase, the digits of a formatted value stand for it. -/
theorem hexNumber_hexDigits (v : Word) : hexNumber ((hexDigits v).map upperHex) = v.toNat := by
  rw [hexDigits, List.map_append, List.map_replicate]
  exact (hexNumber_zeros _ _).trans (hexNumber_naturalText v.isLt)

/-! ## The assembler's literal reader (R70) -/

theorem isHexDigit_of_mem {c : Char} (h : c ∈ lowerDigits) : isHexDigit c = true :=
  List.all_eq_true.mp (by decide : lowerDigits.all isHexDigit = true) c h

/-- Lowercase digits with no underscore among them are well grouped, after a digit or on their own. -/
theorem digitsGrouped_of_lowerDigits {t : Text} (h : ∀ c ∈ t, c ∈ lowerDigits) {b : Bool} (hb : b = true ∨ t ≠ []) :
    digitsGrouped b t = true := by
  induction t generalizing b with
  | nil => exact hb.resolve_right (absurd rfl)
  | cons c t ih =>
    obtain ⟨digit, digits⟩ := List.forall_mem_cons.mp h
    rw [digitsGrouped, if_neg (ne_of_mem_of_not_mem digit (by decide)), isHexDigit_of_mem digit, ih digits (.inl rfl)]
    rfl

/-- The digits of a formatted value are a hex literal, and it is the value (R70, R146). -/
theorem readHex_hexDigits (v : Word) : readHex (hexDigits v) = some v := by
  have noUnderscore : ∀ c ∈ hexDigits v, (c != '_') = true := fun c hc =>
    bne_iff_ne.mpr (ne_of_mem_of_not_mem (mem_lowerDigits_of_mem_hexDigits hc) (by decide))
  have nonempty : hexDigits v ≠ [] := List.ne_nil_of_length_eq_add_one (hexDigits_length v)
  have grouped : digitsGrouped false (hexDigits v) = true :=
    digitsGrouped_of_lowerDigits (fun _ => mem_lowerDigits_of_mem_hexDigits) (.inr nonempty)
  simp [readHex, List.filter_eq_self.mpr noUnderscore, grouped, hexNumber_hexDigits]

/-- Settles O51: after `$` or `0x`, the literal is the eight digits of the value. -/
theorem assemblerReadsEveryFormattedValue : Obligations.AssemblerReadsEveryFormattedValue := by
  intro v
  rw [hexString_eq, hexString_eq]
  exact ⟨readHex_hexDigits v, readHex_hexDigits v⟩

end Sys2Proof.Machine
end

section
/-! SUPPORT. The assembler (R70): how a line of a mnemonic and operands written as bare words is read. -/

namespace Sys2Proof.Machine

/-! ## Words -/

/-- A character that neither ends an operand nor starts a text in quotes. -/
def isWordChar (c : Char) : Bool := c != ',' && c != ' ' && c != quoteChar

/-- An operand as it is written without quotes: some characters, none of which ends it. -/
def IsWord (w : Text) : Prop := w ≠ [] ∧ ∀ c ∈ w, isWordChar c = true

theorem isWordChar_iff {c : Char} : isWordChar c = true ↔ (c ≠ ',' ∧ c ≠ ' ') ∧ c ≠ quoteChar := by
  simp [isWordChar]

theorem isWordChar_of_mem_lowerDigits {c : Char} (h : c ∈ lowerDigits) : isWordChar c = true :=
  List.all_eq_true.mp (by decide : lowerDigits.all isWordChar = true) c h

theorem regName_isWord (r : Reg) : IsWord (regName r) := by
  obtain ⟨f, i⟩ := r
  refine ⟨List.cons_ne_nil _ _, List.forall_mem_cons.mpr ⟨?_, List.forall_mem_singleton.mpr ?_⟩⟩
  · cases f with
    | D | A => rfl
  · exact isWordChar_of_mem_lowerDigits (lowerDigit_mem (by omega))

theorem hexString_dollar_isWord (v : Word) : IsWord (hexString v .dollar) := by
  rw [hexString_eq]
  exact ⟨List.cons_ne_nil _ _, List.forall_mem_cons.mpr
    ⟨by decide, fun _ hc => isWordChar_of_mem_lowerDigits (mem_lowerDigits_of_mem_hexDigits hc)⟩⟩

/-! ## Operands -/

/-- Blanks before a word are skipped, and nothing of the word. -/
theorem skipBlanks_word {w : Text} (hw : IsWord w) (r : Text) : skipBlanks (w ++ r) = w ++ r := by
  obtain ⟨hne, hc⟩ := hw
  cases w with
  | nil => exact absurd rfl hne
  | cons c w =>
    obtain ⟨⟨-, notBlank⟩, -⟩ := isWordChar_iff.mp (hc c List.mem_cons_self)
    exact List.dropWhile_cons_of_neg (by simpa using notBlank)

/-- A word is read whole, up to what ends it. -/
theorem readOperand_word {w r : Text} (hw : IsWord w) (hr : r.takeWhile (fun d => d != ',' && d != ' ') = []) :
    readOperand (w ++ r) = some (.bare w, r) := by
  obtain ⟨hne, hc⟩ := hw
  have whole : (w ++ r).takeWhile (fun d => d != ',' && d != ' ') = w := by
    rw [List.takeWhile_append_of_pos fun c h => by simpa using (isWordChar_iff.mp (hc c h)).1, hr, List.append_nil]
  cases w with
  | nil => exact absurd rfl hne
  | cons c w =>
    obtain ⟨-, notQuote⟩ := isWordChar_iff.mp (hc c List.mem_cons_self)
    rw [List.cons_append] at whole ⊢
    rw [readOperand, if_neg notQuote, whole, if_neg hne, ← List.cons_append, List.drop_left]

/-- The last operand. -/
theorem readOperands_word {w : Text} (hw : IsWord w) {fuel : Nat} (hf : 0 < fuel) :
    readOperands fuel w = some [.bare w] := by
  obtain ⟨fuel, rfl⟩ := Nat.exists_eq_add_one.mpr hf
  have skip := skipBlanks_word hw []
  have read := readOperand_word hw (r := []) rfl
  rw [List.append_nil] at skip read
  rw [readOperands, skip, read]
  rfl

/-- An operand, a comma and a blank, and the operands that follow. -/
theorem readOperands_word_comma {w : Text} (hw : IsWord w) (fuel : Nat) (r : Text) :
    readOperands (fuel + 1) (w ++ ',' :: r) = (readOperands fuel r).map (.bare w :: ·) := by
  rw [readOperands, skipBlanks_word hw, readOperand_word hw rfl]
  rfl

theorem readOperands_blank (fuel : Nat) (r : Text) : readOperands fuel (' ' :: r) = readOperands fuel r := by
  cases fuel <;> rfl

/-! ## Lines -/

theorem find_spelling (m : Mnemonic) :
    Mnemonic.all.find? (fun m' => (Mnemonic.spelling m').toList == (Mnemonic.spelling m).toList) = some m := by
  cases m <;> decide

theorem spelling_isWord (m : Mnemonic) : IsWord (Mnemonic.spelling m).toList :=
  ⟨by cases m <;> decide, List.all_eq_true.mp (by cases m <;> decide)⟩

/-- A line of a mnemonic, a blank and operands is the request of that command with those operands (R70). -/
theorem assemble_command (m : Mnemonic) {ops : Text} (hne : ops ≠ []) (hs : skipBlanks ops = ops) :
    assemble ((Mnemonic.spelling m).toList ++ ' ' :: ops) =
      (readOperands (ops.length + 1) ops).bind fun toks => (assembleCommand m toks).map .request := by
  have hm := spelling_isWord m
  have name : ((Mnemonic.spelling m).toList ++ ' ' :: ops).takeWhile (fun c => c != ' ') =
      (Mnemonic.spelling m).toList := by
    rw [List.takeWhile_append_of_pos fun c h => by simpa using (isWordChar_iff.mp (hm.2 c h)).1.2]
    exact List.append_nil _
  have rest : skipBlanks (' ' :: ops) = ops := hs
  simp only [assemble, skipBlanks_word hm, name, List.drop_left, rest, if_neg hne, find_spelling]

theorem readReg_regName (r : Reg) : readReg (regName r) = some r := by
  obtain ⟨f, i⟩ := r
  cases f <;> revert i <;> decide

/-- Settles O52: both operands of the line are words, which `readReg` and `readNum` read back. -/
theorem assemblerFillsRegisterAndNumber : Obligations.AssemblerFillsRegisterAndNumber := by
  refine ⟨fun r => ?_, fun r v => ?_⟩
  · have hr := regName_isWord r
    have line := assemble_command .RDREG hr.1 (by simpa using skipBlanks_word hr [])
    rw [readOperands_word hr (Nat.succ_pos _)] at line
    simpa [Mnemonic.spelling, assembleCommand, Mnemonic.build, readReg_regName] using line
  · have hr := regName_isWord r
    have hv := hexString_dollar_isWord v
    have operands : regName r ++ ',' :: ' ' :: hexString v .dollar ≠ [] := List.append_ne_nil_of_left_ne_nil hr.1 _
    have line := assemble_command .WRREG operands (skipBlanks_word hr _)
    rw [readOperands_word_comma hr, readOperands_blank, readOperands_word hv (List.length_pos_iff.mpr operands)] at line
    simpa [Mnemonic.spelling, assembleCommand, readReg_regName, (assemblerReadsEveryFormattedValue v).1] using line

/-- Settles O1: the lines and the words of R72 are fixed, so the assembler, the encoder and the decoder run on them. -/
theorem workedCommandEncodings : Obligations.WorkedCommandEncodings := by
  refine ⟨⟨command (.rdreg ⟨.D, 0⟩) 0 0 0 [], ?_⟩, ⟨command (.wrreg ⟨.A, 3⟩) 0 0x1000 0 [], ?_⟩,
    ⟨command (.wrreg ⟨.D, 7⟩) 0 0xFFFFFFFF 0 [], ?_⟩, ⟨command .stw 0 0xDEADBEEF 0 [], ?_⟩,
    ⟨command (.hexstr .dollar) 0 0xE1139C89 0 [], ?_⟩,
    ⟨command (.settxt ⟨.A, 7⟩) 0 0 0 "$E113_9C89".toList, ?_⟩, ?_⟩ <;> decide

end Sys2Proof.Machine
end

section
/-! SUPPORT. The value operations (R80 to R90): what each answers as a function of P1, in numbers and bits, and the
arithmetic of values behind it. -/

namespace Sys2Proof.Machine

/-! ## Values in both views -/

/-- The signed number of a value, from its unsigned one and its sign bit (R80). -/
theorem toInt_eq_toNat_sub_signBit (v : Word) : v.toInt = (v.toNat : Int) - 2 ^ 32 * (v.getLsbD 31).toNat := by
  rw [BitVec.toInt_eq_msb_cond, BitVec.msb_eq_getLsbD_last]
  cases v.getLsbD 31 with
  | false => exact (Int.sub_zero _).symm
  | true => rfl

/-- Bit 0 is clear exactly when the unsigned number is even (R85). -/
theorem toNat_even_iff_getLsbD_zero (v : Word) : v.toNat % 2 = 0 ↔ v.getLsbD 0 = false := by
  rw [BitVec.getLsbD, Nat.testBit_zero, decide_eq_false_iff_not, Nat.mod_two_not_eq_one]

theorem not_getLsbD_zero_eq_decide_even (v : Word) : (!v.getLsbD 0) = decide (v.toNat % 2 = 0) := by
  simp [toNat_even_iff_getLsbD_zero]

/-- The two views differ by a multiple of 2^32, so both are even or neither is (R85). -/
theorem toNat_even_iff_toInt_even (v : Word) : v.toNat % 2 = 0 ↔ v.toInt % 2 = 0 := by
  rw [toInt_eq_toNat_sub_signBit]
  omega

/-- The complement in the signed view: it is the negation less one (R87). -/
theorem toInt_not_eq (v : Word) : (~~~v).toInt = -v.toInt - 1 := by
  have sign : (~~~v).getLsbD 31 = !v.getLsbD 31 := by simp
  rw [toInt_eq_toNat_sub_signBit, toInt_eq_toNat_sub_signBit, BitVec.toNat_not, sign]
  cases v.getLsbD 31 with
  | false | true => simp only [Bool.toNat_false, Bool.toNat_true, Bool.not_false, Bool.not_true]; omega

/-- Negation wraps for one value only, whose negation no word holds (R88). -/
theorem toInt_neg_eq_iff (v : Word) : (-v).toInt = -v.toInt ↔ v ≠ 0x80000000 := by
  refine ⟨?_, BitVec.toInt_neg_of_ne_intMin⟩
  rintro h rfl
  exact absurd h (by decide)

/-! ## Parity (R89) -/

/-- Folding bits with XOR gives the starting bit, flipped when the number of set bits is odd. -/
theorem foldl_xor_eq (bit : Nat → Bool) (ks : List Nat) (p : Bool) :
    ks.foldl (fun p k => p ^^ bit k) p = (p ^^ decide ((ks.filter bit).length % 2 = 1)) := by
  induction ks generalizing p with
  | nil => exact (Bool.xor_false p).symm
  | cons k ks ih =>
    rw [List.foldl_cons, ih, List.filter_cons]
    cases bit k with
    | false => simp
    | true =>
      have flips : decide (((ks.filter bit).length + 1) % 2 = 1) = !decide ((ks.filter bit).length % 2 = 1) := by
        rw [← decide_not, decide_eq_decide]
        omega
      simp [flips]

/-- The XOR-fold is 0 exactly when the number of set bits is even (R89). -/
theorem not_xorFold_eq_decide_popCount_even (v : Word) : (!xorFold v) = decide (popCount v % 2 = 0) := by
  rw [xorFold, foldl_xor_eq, Bool.false_xor, ← decide_not, decide_eq_decide, Nat.mod_two_not_eq_one, popCount]

/-! ## The responses -/

/-- What a value operation answers for a value, in numbers and bits (R80 to R89); no other command has an arm of its own. -/
def valueResponse (v : Word) : Instr → Response
  | .tosigned => Response.signed v
  | .tounsigned | .bytes | .shorts => Response.word v
  | .iszero => Response.bool (decide (v = 0))
  | .iseven => Response.bool (decide (v.toNat % 2 = 0))
  | .signbit => Response.bool (decide (v.toInt < 0))
  | .onesc => Response.word (~~~v)
  | .twosc => Response.word (-v)
  | .parity => Response.bool (decide (popCount v % 2 = 0))
  | _ => Response.plain

theorem valueResponse_st (v : Word) (i : Instr) : (valueResponse v i).st = .ok := by
  cases i <;> rfl

/-- A value operation leaves the block as it is, and its response is a function of P1 (R90). -/
theorem operationOf_valueOp {i : Instr} (hi : i ∈ valueOps) (p : Params) (q : Request) (b : Block) :
    operationOf i p q b = (b, valueResponse q.p1 i) := by
  cases i with
  | tosigned | tounsigned => rfl
  | bytes => exact congrArg (b, Response.word ·) (composeBytes_bytesOf q.p1)
  | shorts => exact congrArg (b, Response.word ·) (composeHalves_shortsOf q.p1)
  | iszero => exact congrArg (b, Response.bool ·) (Bool.beq_eq_decide_eq q.p1 0)
  | iseven => exact congrArg (b, Response.bool ·) (not_getLsbD_zero_eq_decide_even q.p1)
  | signbit => exact congrArg (b, Response.bool ·) (getLsbD_31_eq_decide_toInt_neg q.p1)
  | onesc => exact congrArg (b, Response.word ·) BitVec.xor_allOnes
  | twosc => exact congrArg (b, Response.word ·) (xor_ones_add_one_eq_neg q.p1)
  | parity => exact congrArg (b, Response.bool ·) (not_xorFold_eq_decide_popCount_even q.p1)
  | _ => simp [valueOps] at hi

/-- A value operation is one response more, a function of P1, and nothing else (R90). -/
theorem exec_valueOp {i : Instr} (hi : i ∈ valueOps) (s : State) :
    exec i s = .next { s with responses := s.responses ++ [valueResponse s.req.p1 i] } := by
  rw [exec_eq_perform, State.perform_eq, operationOf_valueOp hi, State.answer_same]

/-- Settles O19: `valueResponse` is the response. -/
theorem valueOperationsArePureFunctionsOfP1 : Obligations.ValueOperationsArePureFunctionsOfP1 := by
  intro i hi v
  refine ⟨valueResponse v i, valueResponse_st v i, ?_⟩
  rintro s rfl
  exact exec_valueOp hi s

/-- Settles O18: the XOR-fold counts the set bits modulo two. -/
theorem parityIsEvenNumberOfSetBits : Obligations.ParityIsEvenNumberOfSetBits :=
  ⟨exec_valueOp (i := .parity) (by decide), by decide⟩

/-- Settles O14: both views are the word itself, and the signed number takes 2^32 off for the sign bit. -/
theorem dualViewKeepsTheBits : Obligations.DualViewKeepsTheBits :=
  ⟨fun s => ⟨exec_valueOp (i := .tosigned) (by decide) s, exec_valueOp (i := .tounsigned) (by decide) s⟩,
    toInt_eq_toNat_sub_signBit, by decide, by decide⟩

/-- Settles O15: a value is the concatenation of its parts, so packing them gives it back. -/
theorem bytesAndShortsAreTheLanes : Obligations.BytesAndShortsAreTheLanes := by
  refine ⟨fun s => ⟨exec_valueOp (i := .bytes) (by decide) s, exec_valueOp (i := .shorts) (by decide) s⟩,
    fun v => ⟨?_, ?_, rfl, rfl⟩, by decide, by decide⟩
  · exact (composeBytes_four ..).symm.trans (composeBytes_bytesOf v)
  · exact (BitVec.extractLsb'_append_extractLsb'_eq_extractLsb' rfl).trans BitVec.extractLsb'_eq_self

/-- Settles O16: the tests of bit 0 and bit 31 say what the numbers are. -/
theorem predicatesOfAValue : Obligations.PredicatesOfAValue := by
  refine ⟨fun s => ⟨exec_valueOp (i := .iszero) (by decide) s, exec_valueOp (i := .iseven) (by decide) s,
    exec_valueOp (i := .signbit) (by decide) s⟩, fun v => ⟨toNat_even_iff_toInt_even v,
    toNat_even_iff_getLsbD_zero v, ?_⟩, by decide, by decide, by decide⟩
  rw [getLsbD_31_eq_decide_toInt_neg, decide_eq_true_iff]

/-- Settles O17: XOR with ones is the complement, and the complement plus one is the negation. -/
theorem complementsOfAValue : Obligations.ComplementsOfAValue :=
  ⟨fun s => ⟨exec_valueOp (i := .onesc) (by decide) s, exec_valueOp (i := .twosc) (by decide) s⟩,
    fun v => ⟨BitVec.xor_allOnes.symm, toInt_not_eq v, (xor_ones_add_one_eq_neg v).symm, BitVec.toNat_neg v,
      toInt_neg_eq_iff v⟩, by decide, by decide⟩

end Sys2Proof.Machine
end

section
/-! SUPPORT. The memory operations (R100 to R107): what a load and a store answer on the request in service, inside the
memory and out of it, and that they touch nothing but memory. -/

namespace Sys2Proof.Machine

/-! ## Bytes written one by one (R47) -/

/-- MemWrite writes its first byte at its address, if that is inside the memory, and the others from the next one up. -/
theorem read_memWrite_cons {size a x : Nat} {b : Byte} {bs : List Byte} {m : Memory} (h : Memory.wf m = true)
    (inside : x = a → a < size) :
    Memory.read (memWrite size a (b :: bs) m).1 x =
      if x = a then b else Memory.read (memWrite size (a + 1) bs m).1 x := by
  rw [read_memWrite h, read_memWrite h, List.length_cons]
  by_cases hx : x = a
  · subst hx
    rw [if_pos (by omega), if_pos rfl, Nat.sub_self, List.getD_cons_zero]
  · rw [if_neg hx]
    by_cases later : a + 1 ≤ x ∧ x < a + 1 + bs.length ∧ x < size
    · rw [if_pos (by omega), if_pos later, show x - a = x - (a + 1) + 1 by omega, List.getD_cons_succ]
    · rw [if_neg (by omega), if_neg later]

/-! ## On the request in service -/

/-- FA holds the first address outside of an access that leaves the memory, with no wrap (R64, R106). -/
theorem BlockError.access_max_faultAddress (size : MemSize) {a : Nat} (ha : a < 2 ^ 34) :
    (BlockError.access (max a size.val)).faultAddress.toNat = max a size.val :=
  Nat.mod_eq_of_lt (by omega)

/-- A load inside the memory answers its bytes, composed, and nothing else changes. -/
theorem exec_load_inside {i : Instr} {s : State} {a n : Nat} {v : Word}
    (hi : operationOf i s.toParams s.req = load s.memSize a n) (h : a + n ≤ s.memSize.val)
    (hv : composeBytes ((List.range n).map fun k => Memory.read s.mem (a + k)) = v) :
    exec i s = .next { s with responses := s.responses ++ [⟨.ok, 0, v, false, false, []⟩] } :=
  exec_answers_word (q := s.req) (by rw [hi, load_inside h, hv])

/-- A load that leaves the memory answers AccessError with the first address outside, and nothing else changes. -/
theorem exec_load_outside {i : Instr} {s : State} {a n e : Nat}
    (hi : operationOf i s.toParams s.req = load s.memSize a n) (ha : a < 2 ^ 34) (hn : 0 < n)
    (h : s.memSize.val < a + n) (he : max a s.memSize.val = e) :
    ∃ fa : FaultAddress, fa.toNat = e ∧
      exec i s = .next { s with responses := s.responses ++ [⟨.accessError, fa, 0, false, false, []⟩] } := by
  refine ⟨_, (BlockError.access_max_faultAddress s.memSize ha).trans he, ?_⟩
  rw [exec_eq_perform, State.perform_eq, hi, load_outside hn h]
  rfl

/-- A load that starts outside the memory answers AccessError with its address. -/
theorem exec_load_start_outside {i : Instr} {s : State} {a n : Nat}
    (hi : operationOf i s.toParams s.req = load s.memSize a n) (ha : a < 2 ^ 34) (hn : 0 < n)
    (h : s.memSize.val ≤ a) :
    ∃ fa : FaultAddress, fa.toNat = a ∧
      exec i s = .next { s with responses := s.responses ++ [⟨.accessError, fa, 0, false, false, []⟩] } :=
  exec_load_outside hi ha hn (by omega) (Nat.max_eq_left h)

/-- A store inside the memory answers OK and writes its bytes, and nothing else changes. -/
theorem exec_store_inside {i : Instr} {s : State} {a : Nat} {bs : List Byte}
    (hi : operationOf i s.toParams s.req = store s.memSize a bs) (h : a + bs.length ≤ s.memSize.val) :
    exec i s = .next { s with
      mem := (memWrite s.memSize.val a bs s.mem).1, responses := s.responses ++ [⟨.ok, 0, 0, false, false, []⟩] } := by
  rw [exec_eq_perform, State.perform_eq, hi, store_inside h]
  rfl

/-- A store that leaves the memory answers AccessError with the first address outside, after its bytes inside are
written, and nothing else changes. -/
theorem exec_store_outside {i : Instr} {s : State} {a e : Nat} {bs : List Byte}
    (hi : operationOf i s.toParams s.req = store s.memSize a bs) (ha : a < 2 ^ 34) (hn : bs ≠ [])
    (h : s.memSize.val < a + bs.length) (he : max a s.memSize.val = e) :
    ∃ fa : FaultAddress, fa.toNat = e ∧
      exec i s = .next { s with
        mem := (memWrite s.memSize.val a bs s.mem).1,
        responses := s.responses ++ [⟨.accessError, fa, 0, false, false, []⟩] } := by
  refine ⟨_, (BlockError.access_max_faultAddress s.memSize ha).trans he, ?_⟩
  rw [exec_eq_perform, State.perform_eq, hi, store_outside hn h]
  rfl

/-- A store that starts outside the memory answers AccessError with its address and writes nothing. -/
theorem exec_store_start_outside {i : Instr} {s : State} {a : Nat} {bs : List Byte}
    (hi : operationOf i s.toParams s.req = store s.memSize a bs) (ha : a < 2 ^ 34) (hn : bs ≠ [])
    (h : s.memSize.val ≤ a) :
    ∃ fa : FaultAddress, fa.toNat = a ∧
      exec i s = .next { s with responses := s.responses ++ [⟨.accessError, fa, 0, false, false, []⟩] } := by
  have length_pos : 0 < bs.length := List.length_pos_iff.mpr hn
  have answer := exec_store_outside hi ha hn (by omega) (Nat.max_eq_left h)
  rwa [memWrite_start_outside s.mem h] at answer

/-! ## The loads -/

/-- Settles O20: a load of one byte. -/
theorem loadByte : Obligations.LoadByte := by
  refine ⟨fun s h => ?_, fun s h => ?_, by decide⟩
  · exact exec_load_inside rfl h (composeBytes_one _)
  · exact exec_load_start_outside rfl s.req.address_lt Nat.one_pos h

/-- Settles O21: a load of two bytes, of which the second alone may be outside. -/
theorem loadHalfWord : Obligations.LoadHalfWord := by
  refine ⟨fun s h => ?_, fun s h => ?_, fun s h => ?_, by decide⟩
  · exact exec_load_inside rfl h (composeBytes_two _ _)
  · exact exec_load_start_outside rfl s.req.address_lt Nat.two_pos h
  · exact exec_load_outside rfl s.req.address_lt Nat.two_pos (Nat.lt_succ_of_le (Nat.le_of_eq h.symm))
      (Nat.max_eq_right (Nat.le_of_succ_le (Nat.le_of_eq h)))

/-- Settles O22: a load of four bytes, of which the later ones may be outside. -/
theorem loadWord : Obligations.LoadWord := by
  refine ⟨fun s h => ?_, fun s h => ?_, fun s inside h => ?_, by decide⟩
  · exact exec_load_inside rfl h (composeBytes_four _ _ _ _)
  · exact exec_load_start_outside rfl s.req.address_lt (by decide : 0 < 4) h
  · exact exec_load_outside rfl s.req.address_lt (by decide : 0 < 4) (Nat.lt_succ_of_le h)
      (Nat.max_eq_right (Nat.le_of_lt inside))

/-- Settles O23: a load of one byte at the sum, which fits on FA. -/
theorem loadByteIndexed : Obligations.LoadByteIndexed := by
  refine ⟨fun s h => ?_, fun s h => ?_, fun s index offset => ?_, by decide⟩
  · exact exec_load_inside rfl h (composeBytes_one _)
  · exact exec_load_start_outside rfl s.req.indexedAddress_lt Nat.one_pos h
  · have sum : s.req.indexedAddress = s.req.address := by
      simp [Request.indexedAddress, Request.address, index, offset]
    have same : operationOf .ldbx s.toParams s.req = operationOf .ldb s.toParams s.req :=
      congrArg (load s.memSize · 1) sum
    rw [exec_eq_perform, exec_eq_perform, State.perform_eq, State.perform_eq, same]

/-! ## The stores -/

/-- Settles O24: a store of one byte, read back by `read_memWrite_cons`. -/
theorem storeByte : Obligations.StoreByte := by
  refine ⟨fun s hw h => ⟨_, exec_store_inside rfl h, fun x => ?_⟩, fun s h => ?_, by decide⟩
  · exact read_memWrite_cons hw fun _ => h
  · exact exec_store_start_outside rfl s.req.address_lt (List.cons_ne_nil _ _) h

/-- Settles O25: a store of two bytes; at the last address MemWrite has written the first when the second is outside. -/
theorem storeHalfWord : Obligations.StoreHalfWord := by
  refine ⟨fun s hw h => ⟨_, exec_store_inside rfl h, fun x => ?_⟩, fun s h => ?_, fun s hw h => ?_, by decide⟩
  · exact (read_memWrite_cons hw fun _ => Nat.lt_of_succ_lt h).trans (congrArg _ (read_memWrite_cons hw fun _ => h))
  · exact exec_store_start_outside rfl s.req.address_lt (List.cons_ne_nil _ _) h
  · obtain ⟨fa, address, answer⟩ := exec_store_outside (i := .sth) (bs := s.req.storeHalf) rfl s.req.address_lt
      (List.cons_ne_nil _ _) (Nat.lt_succ_of_le (Nat.le_of_eq h.symm))
      (Nat.max_eq_right (Nat.le_of_succ_le (Nat.le_of_eq h)))
    refine ⟨fa, _, address, answer, fun x => (read_memWrite_cons hw fun _ => Nat.le_of_eq h).trans ?_⟩
    rw [memWrite_start_outside _ (Nat.le_of_eq h.symm)]

/-- What any address reads as after STW: byte by byte where MemWrite reaches it. -/
theorem read_memWrite_storeWord {size x : Nat} {q : Request} {m : Memory} (h : Memory.wf m = true)
    (inside : q.address + 3 < size ∨ x < size) :
    Memory.read (memWrite size q.address q.storeWord m).1 x =
      if x = q.address then q.p1.extractLsb' 24 8
      else if x = q.address + 1 then q.p1.extractLsb' 16 8
      else if x = q.address + 2 then q.p1.extractLsb' 8 8
      else if x = q.address + 3 then q.p1.extractLsb' 0 8
      else Memory.read m x := by
  rw [Request.storeWord, bytesOf, read_memWrite_cons h (by omega), read_memWrite_cons h (by omega),
    read_memWrite_cons h (by omega), read_memWrite_cons h (by omega)]
  rfl

/-- Settles O26: `read_memWrite_storeWord`; a store that leaves the memory writes no address outside, and its last byte is
outside. -/
theorem storeWord : Obligations.StoreWord := by
  refine ⟨fun s hw h => ⟨_, exec_store_inside rfl h, fun x => ?_⟩, fun s h => ?_, fun s hw inside h => ?_, by decide⟩
  · exact read_memWrite_storeWord hw (.inl h)
  · exact exec_store_start_outside rfl s.req.address_lt (List.cons_ne_nil _ _) h
  · obtain ⟨fa, address, answer⟩ := exec_store_outside (i := .stw) (bs := s.req.storeWord) rfl s.req.address_lt
      (List.cons_ne_nil _ _) (Nat.lt_succ_of_le h) (Nat.max_eq_right (Nat.le_of_lt inside))
    refine ⟨fa, _, address, answer, fun x => ?_⟩
    by_cases hx : s.memSize.val ≤ x
    · rw [if_pos hx, read_memWrite_other hw (by omega)]
    · have last : x ≠ s.req.address + 3 := fun hlast => hx (hlast ▸ h)
      rw [if_neg hx, read_memWrite_storeWord hw (.inr (Nat.lt_of_not_le hx)), if_neg last]
      rfl

/-! ## What the memory operations touch (R107) -/

/-- A store is `store` at the address operand, of as many bytes as its width. -/
theorem operationOf_storeOp {i : Instr} (hi : i ∈ storeOps) (p : Params) (q : Request) :
    ∃ bs, bs.length = storeWidth i ∧ operationOf i p q = store p.memSize q.address bs := by
  cases i with
  | stb | sth | stw => exact ⟨_, rfl, rfl⟩
  | _ => simp [storeOps] at hi

/-- Settles O27: MemWrite writes no byte but the store's, and the store writes nothing but the memory. -/
theorem storesFrame : Obligations.StoresFrame := by
  intro i hi s t hw h
  obtain ⟨bs, width, stores⟩ := operationOf_storeOp hi s.toParams s.req
  rw [exec_next h, stores, store_eq]
  refine ⟨rfl, rfl, rfl, rfl, rfl, rfl, rfl, fun x outside => read_memWrite_other hw ?_⟩
  omega

/-- An operation on the block that reads nothing but its memory and writes nothing but its memory, and whose response is
OK or AccessError (R107). -/
def TouchesOnlyMemory (f : Block → Block × Response) : Prop :=
  ∀ m : Memory, ∃ (m' : Memory) (r : Response), (r.st = .ok ∨ r.st = .accessError) ∧
    ∀ b : Block, b.mem = m → f b = ({ b with mem := m' }, r)

theorem load_touchesOnlyMemory (size : MemSize) (a n : Nat) : TouchesOnlyMemory (load size a n) := by
  refine fun m => ⟨m, loadResponse size m a n, ?_, ?_⟩
  · rw [loadResponse]
    cases memRead size.val m a n with
    | ok => exact .inl rfl
    | error => exact .inr rfl
  · rintro b rfl
    exact load_eq ..

theorem store_touchesOnlyMemory (size : MemSize) (a : Nat) (bs : List Byte) :
    TouchesOnlyMemory (store size a bs) := by
  refine fun m => ⟨(memWrite size.val a bs m).1, storeResponse (memWrite size.val a bs m).2, ?_, ?_⟩
  · cases (memWrite size.val a bs m).2 with
    | none => exact .inl rfl
    | some => exact .inr rfl
  · rintro b rfl
    exact store_eq ..

/-- A memory operation touches nothing but memory, and of the parameters it reads MEM_SIZE alone. -/
theorem operationOf_touchesOnlyMemory {i : Instr} (hi : i ∈ loadOps ++ storeOps) (size : MemSize) (q : Request) :
    ∃ f, TouchesOnlyMemory f ∧ ∀ p : Params, p.memSize = size → operationOf i p q = f := by
  cases i with
  | ldb | ldh | ldw | ldbx => exact ⟨_, load_touchesOnlyMemory size _ _, by rintro p rfl; rfl⟩
  | stb | sth | stw => exact ⟨_, store_touchesOnlyMemory size _ _, by rintro p rfl; rfl⟩
  | _ => simp [loadOps, storeOps] at hi

/-- Settles O29: with the same ports, MEM_SIZE and memory, the operation is the same function of the block, and it touches
only memory. -/
theorem memoryOperationsTouchOnlyMemory : Obligations.MemoryOperationsTouchOnlyMemory := by
  intro i hi s s' size mem ports
  obtain ⟨f, touches, eq⟩ := operationOf_touchesOnlyMemory hi s.memSize s.req
  obtain ⟨m, r, status, does⟩ := touches s.mem
  refine ⟨m, r, status, ?_, ?_⟩
  · rw [exec_eq_perform, State.perform_eq, eq _ rfl, does _ rfl]
    rfl
  · rw [exec_eq_perform, State.perform_eq, ← operationOf_congr ports, eq _ size.symm, does _ mem.symm]
    rfl

end Sys2Proof.Machine
end

section
/-! SUPPORT. The register file and the flags (R120 to R124): what RDREG, WRREG, RDFLG and WRFLG answer and write, that a
register keeps its value until a request writes it, and that the two files are alike. -/

namespace Sys2Proof

/-! ## The word of a register command (R61) -/

/-- The fields of a disjunction are the disjunctions of the fields. -/
theorem Fields.ofWord_or (w v : Word) :
    Fields.ofWord (w ||| v) =
      ⟨(Fields.ofWord w).op ||| (Fields.ofWord v).op, (Fields.ofWord w).f ||| (Fields.ofWord v).f,
        (Fields.ofWord w).r ||| (Fields.ofWord v).r, (Fields.ofWord w).h ||| (Fields.ofWord v).h,
        (Fields.ofWord w).z ||| (Fields.ofWord v).z⟩ := by
  simp only [Fields.ofWord, BitVec.extractLsb'_or]

/-- Bit 23 is the field F, and nothing else. -/
theorem Fields.ofWord_file_shifted (f : RegFile) :
    Fields.ofWord (f.toBit.zeroExtend 32 <<< 23) = ⟨0, f.toBit, 0, 0, 0⟩ := by
  cases f <;> rfl

/-- Bits 22 to 20 are the field R, and nothing else. -/
theorem Fields.ofWord_index_shifted (i : Fin 8) :
    Fields.ofWord (BitVec.ofNat 32 i.val <<< 20) = ⟨0, 0, BitVec.ofFin i, 0, 0⟩ := by
  revert i; decide

/-- The word of a register command is `OP<<24 | F<<23 | i<<20`. -/
theorem Fields.toWord_ofReg (m : Mnemonic) (r : Reg) :
    (Fields.ofReg m r).toWord =
      m.matchWord ||| (r.file.toBit.zeroExtend 32 <<< 23) ||| (BitVec.ofNat 32 r.index.val <<< 20) := by
  rw [← Fields.ofWord_inj, Fields.ofWord_toWord, Fields.ofWord_or, Fields.ofWord_or, Mnemonic.ofWord_matchWord,
    Fields.ofWord_file_shifted, Fields.ofWord_index_shifted]
  simp [Fields.ofReg, Fields.ofOp]

end Sys2Proof

namespace Sys2Proof.Machine

/-! ## A register no request writes (R120) -/

/-- The request is neither a WRREG nor a SETTXT of the register. -/
def Request.KeepsReg (q : Request) (r : Reg) : Prop :=
  decode q.cmd ≠ .ok (.wrreg r) ∧ decode q.cmd ≠ .ok (.settxt r)

/-- The register holds the value, and no request the host will issue writes it. -/
def State.HoldsUnwritten (s : State) (r : Reg) (v : Word) : Prop :=
  s.readReg r = v ∧ ∀ q ∈ s.script, q.KeepsReg r

/-- A command that is neither WRREG nor SETTXT of a register keeps it. -/
theorem operationOf_readReg_other {i : Instr} {r : Reg} (hw : i ≠ .wrreg r) (ht : i ≠ .settxt r) (p : Params)
    (q : Request) (b : Block) : (operationOf i p q b).1.readReg r = b.readReg r := by
  obtain e | ⟨-, a, bs, e⟩ | ⟨r', v, hi, e⟩ | ⟨-, f, e⟩ := operationOf_writes i p q
  · rw [e]
  · rw [e]; rfl
  · have other : r ≠ r' := by
      rintro rfl
      exact hi.elim hw ht
    rw [e, Block.readReg_writeReg_other b v other]
  · rw [e, Block.writeFlags_readReg]

/-- Serving a request that does not write a register, legal or not, keeps it. -/
theorem serveRequest_readReg {q : Request} {r : Reg} (h : q.KeepsReg r) (p : Params) (b : Block) :
    (serveRequest p q b).1.readReg r = b.readReg r := by
  obtain ⟨hw, ht⟩ := h
  cases hd : decode q.cmd with
  | ok i =>
    rw [hd] at hw ht
    rw [serveRequest_of_decode_ok hd]
    exact operationOf_readReg_other (mt (congrArg Decoded.ok) hw) (mt (congrArg Decoded.ok) ht) p q b
  | error e => rw [serveRequest_of_decode_error hd]; rfl

/-- A step that serves a request which does not write a register keeps it. -/
theorem step_readReg {s t : State} {q : Request} {rest : List Request} {r : Reg} (hs : s.script = q :: rest)
    (hq : q.KeepsReg r) (h : step s = .next t) : t.readReg r = s.readReg r := by
  rw [step_eq_perform_serveRequest hs, State.perform_eq] at h
  rw [← Host.Outcome.next.inj h]
  exact serveRequest_readReg hq ..

theorem State.HoldsUnwritten.step {s t : State} {r : Reg} {v : Word} (h : s.HoldsUnwritten r v)
    (hstep : step s = .next t) : t.HoldsUnwritten r v := by
  obtain ⟨holds, unwritten⟩ := h
  obtain ⟨-, rfl⟩ | ⟨q, rest, hs, ht⟩ := step_next hstep
  · exact ⟨holds, unwritten⟩
  · rw [hs] at unwritten
    refine ⟨(step_readReg hs (unwritten q (.head _)) hstep).trans holds, ?_⟩
    rw [ht, State.answer_script, State.accept_script]
    exact fun q' hq' => unwritten q' (.tail _ hq')

/-! ## Runs -/

/-- A run of one step more is a step and then the run. -/
theorem run_succ_next {M : Host.Core} {k : Nat} {s t : M.State} (h : M.run (k + 1) s = .next t) :
    ∃ u, M.step s = .next u ∧ M.run k u = .next t := by
  rw [Host.Core.run] at h
  cases hstep : M.step s with
  | next u => exact ⟨u, rfl, by rwa [hstep] at h⟩
  | fault r => simp [hstep] at h
  | refused r => simp [hstep] at h

/-- What holds of a state and is kept by every step holds after every run. -/
theorem run_of_step_keeps {M : Host.Core} {P : M.State → Prop} (keeps : ∀ {s t}, P s → M.step s = .next t → P t)
    {k : Nat} {s t : M.State} (h : P s) (hrun : M.run k s = .next t) : P t := by
  induction k generalizing s with
  | zero => exact Host.Outcome.next.inj hrun ▸ h
  | succ k ih =>
    obtain ⟨u, hstep, hrest⟩ := run_succ_next hrun
    exact ih (keeps h hstep) hrest

/-! ## RDREG and WRREG (R120, R121) -/

/-- RDREG answers the register's value, and nothing else changes. -/
theorem exec_rdreg (s : State) (r : Reg) :
    exec (.rdreg r) s =
      .next { s with responses := s.responses ++ [⟨.ok, 0, s.readReg r, false, false, []⟩] } :=
  exec_answers_word (q := s.req) rfl

/-- Settles O33: every step keeps `HoldsUnwritten`, which construction gives with REG_INIT for the value. -/
theorem readRegister : Obligations.ReadRegister := by
  refine ⟨exec_rdreg, fun s t q rest r hs hw ht => step_readReg hs ⟨hw, ht⟩, fun n init o r l k t hl hrun => ?_,
    fun f i => Fields.toWord_ofReg .RDREG ⟨f, i⟩⟩
  have constructed : State.HoldsUnwritten { State.construct n init o with script := l } r (init r.file r.index) :=
    ⟨Block.construct_readReg init r, hl⟩
  obtain ⟨holds, -⟩ := run_of_step_keeps State.HoldsUnwritten.step constructed hrun
  rw [exec_rdreg, holds]

/-- Writing a register writes nothing but the two files. -/
theorem Block.writeReg_eq (b : Block) (r : Reg) (v : Word) :
    b.writeReg r v = { b with dregs := (b.writeReg r v).dregs, aregs := (b.writeReg r v).aregs } := by
  obtain ⟨_ | _, i⟩ := r <;> rfl

/-- Settles O34: the operation is `writeReg` of P1. -/
theorem writeRegister : Obligations.WriteRegister := by
  refine ⟨fun s r => ⟨_, exec_eq_perform .., Block.readReg_writeReg_same .., fun _ => Block.readReg_writeReg_other _ _,
    ?_, fun own => ?_⟩, fun f i => Fields.toWord_ofReg .WRREG ⟨f, i⟩⟩
  · exact congrArg (fun b => s.answer (b, Response.plain)) (Block.writeReg_eq s.toBlock r s.req.p1)
  · have same : s.toBlock.writeReg r s.req.p1 = s.toBlock := own ▸ Block.writeReg_readReg ..
    exact ⟨congrArg Block.dregs same, congrArg Block.aregs same⟩

/-! ## RDFLG and WRFLG (R122, R123) -/

/-- RDFLG shows flag k on bit k (R122). -/
theorem flagsWord_getLsbD (f : BitVec 3) {k : Nat} (hk : k < 3) : (flagsWord f).getLsbD k = f.getLsbD k := by
  have inWord : k < 32 := by omega
  simp [flagsWord, inWord]

/-- RDFLG shows zero above the flags (R122). -/
theorem flagsWord_above (f : BitVec 3) : (flagsWord f).extractLsb' 3 29 = 0 := by
  revert f; decide

/-- WRFLG takes flag k from bit k (R123). -/
theorem flagsOfWord_getLsbD (v : Word) {k : Nat} (hk : k < 3) : (flagsOfWord v).getLsbD k = v.getLsbD k := by
  simp [flagsOfWord, hk]

/-- Settles O35: the flags are the low three bits of the word, both ways. -/
theorem readAndWriteFlags : Obligations.ReadAndWriteFlags := by
  refine ⟨fun s => ⟨flagsWord s.flags, exec_answers_word (q := s.req) rfl, ?_⟩,
    fun s => ⟨_, exec_eq_perform .., rfl, ?_⟩, by decide, by decide⟩
  · exact ⟨flagsWord_getLsbD _ (by decide), flagsWord_getLsbD _ (by decide), flagsWord_getLsbD _ (by decide),
      flagsWord_above _⟩
  · exact ⟨flagsOfWord_getLsbD _ (by decide), flagsOfWord_getLsbD _ (by decide), flagsOfWord_getLsbD _ (by decide)⟩

/-! ## The two files exchanged (R124) -/

/-- The block with the contents of the two files exchanged. -/
def Block.swapFiles (b : Block) : Block := b.setRegs b.aregs b.dregs

theorem State.swapFiles_eq (s : State) : s.swapFiles = { s with toBlock := s.toBlock.swapFiles } := rfl

@[simp] theorem Block.readReg_swapFiles (b : Block) (r : Reg) : b.swapFiles.readReg (swapReg r) = b.readReg r := by
  obtain ⟨_ | _, i⟩ := r <;> rfl

@[simp] theorem Block.writeReg_swapFiles (b : Block) (r : Reg) (v : Word) :
    b.swapFiles.writeReg (swapReg r) v = (b.writeReg r v).swapFiles := by
  obtain ⟨_ | _, i⟩ := r <;> rfl

/-- A command that writes no register keeps both files. -/
theorem operationOf_files {i : Instr} (hw : ∀ r, i ≠ .wrreg r) (ht : ∀ r, i ≠ .settxt r) (p : Params) (q : Request)
    (b : Block) : (operationOf i p q b).1.dregs = b.dregs ∧ (operationOf i p q b).1.aregs = b.aregs := by
  obtain e | ⟨-, a, bs, e⟩ | ⟨r, v, e | e, -⟩ | ⟨-, f, e⟩ := operationOf_writes i p q
  · rw [e]; exact ⟨rfl, rfl⟩
  · rw [e]; exact ⟨rfl, rfl⟩
  · exact absurd e (hw r)
  · exact absurd e (ht r)
  · rw [e]; exact ⟨rfl, rfl⟩

/-- A command that neither reads nor writes a register does the same on the block with its files exchanged. -/
theorem operationOf_swapFiles_of_no_register {i : Instr} (hr : ∀ r, i ≠ .rdreg r) (hv : ∀ r, i ≠ .valstr r)
    (hw : ∀ r, i ≠ .wrreg r) (ht : ∀ r, i ≠ .settxt r) (p : Params) (q : Request) (b : Block) :
    operationOf i p q b.swapFiles = ((operationOf i p q b).1.swapFiles, (operationOf i p q b).2) := by
  obtain ⟨data, address⟩ := operationOf_files hw ht p q b
  rw [Block.swapFiles, Block.swapFiles, data, address]
  exact operationOf_setRegs hr hv hw ht p q b b.aregs b.dregs

/-- Exchanging the files in the command and in the block exchanges them in the outcome and keeps the response: the four
commands that read or write a register do it in the other file, and the others do not touch the files (R124). -/
theorem operationOf_swapInstr {i : Instr} (hn : ∀ r, i ≠ .name r) (p : Params) (q : Request) (b : Block) :
    operationOf (swapInstr i) p q b.swapFiles =
      ((operationOf i p q b).1.swapFiles, (operationOf i p q b).2) := by
  cases i with
  | rdreg r => simp [swapInstr, operationOf, opRdreg]
  | valstr r => simp [swapInstr, operationOf, opValstr]
  | wrreg r => simp [swapInstr, operationOf, opWrreg]
  | settxt r => simp [swapInstr, operationOf, opSettxt_eq]
  | name r => exact absurd rfl (hn r)
  | _ => exact operationOf_swapFiles_of_no_register (by nofun) (by nofun) (by nofun) (by nofun) p q b

/-- Settles O36: `operationOf_swapInstr` for the commands; the digit of a name depends on the index alone. -/
theorem theTwoRegisterFilesBehaveAlike : Obligations.TheTwoRegisterFilesBehaveAlike := by
  refine ⟨fun i s t hn h => ?_, fun i s => ⟨lowerDigit i.val, exec_eq_perform .., exec_eq_perform ..⟩⟩
  rw [exec_next h, exec_eq_perform, State.perform_eq, State.swapFiles_eq, operationOf_swapInstr hn]
  rfl

end Sys2Proof.Machine
end

section
/-! SUPPORT. The text interface (R135 to R151): a formatted value digit by digit, the parser on a text in three parts, the
round trip through text, and what the text commands answer and write. -/

namespace Sys2Proof.Machine

/-! ## The digits of a formatted value, one by one (R137, R138) -/

/-- The zeros and the natural digits together are all the digits of a number up to the width, each the lowercase digit of
its own quotient. -/
theorem zeros_append_naturalText (fuel n : Nat) :
    List.replicate (fuel - (naturalText fuel n).length) '0' ++ naturalText fuel n =
      (List.range fuel).map fun k => lowerDigit (n / 16 ^ (fuel - 1 - k) % 16) := by
  induction fuel generalizing n with
  | zero => rfl
  | succ fuel ih =>
    have quotient : ∀ k ∈ List.range fuel, lowerDigit (n / 16 ^ (fuel + 1 - 1 - k) % 16) =
        lowerDigit (n / 16 / 16 ^ (fuel - 1 - k) % 16) := fun k hk => by
      have exponent : fuel + 1 - 1 - k = fuel - 1 - k + 1 := by have := List.mem_range.mp hk; omega
      rw [exponent, Nat.pow_succ', Nat.div_div_eq_div_mul]
    rw [List.range_succ, List.map_append, List.map_congr_left quotient, naturalText, naturalDigits_succ]
    split
    next small =>
      have zeros : (List.range fuel).map (fun k => lowerDigit (n / 16 / 16 ^ (fuel - 1 - k) % 16)) =
          List.replicate fuel '0' := by
        refine List.eq_replicate_iff.mpr ⟨by rw [List.length_map, List.length_range], fun c hc => ?_⟩
        obtain ⟨k, -, rfl⟩ := List.mem_map.mp hc
        rw [Nat.div_eq_of_lt small, Nat.zero_div]
        rfl
      rw [zeros]
      simp [Nat.mod_eq_of_lt small]
    next =>
      rw [← ih (n / 16)]
      simp [naturalText]

/-- Group k of a value is a digit of its base-16 number. -/
theorem nibble_eq_div_mod (v : Word) {k : Nat} (hk : k < 8) : nibble v k = v.toNat / 16 ^ (7 - k) % 16 := by
  have start : 28 - 4 * k = 4 * (7 - k) := by omega
  rw [nibble, BitVec.extractLsb'_toNat, Nat.shiftRight_eq_div_pow, start, Nat.pow_mul]

theorem nibble_lt (v : Word) (k : Nat) : nibble v k < 16 :=
  BitVec.isLt _

/-- The digits of the first k groups of a value. -/
def leadingDigits (v : Word) (k : Nat) : Text := (List.range k).map fun j => lowerDigit (nibble v j)

@[simp] theorem leadingDigits_length (v : Word) (k : Nat) : (leadingDigits v k).length = k := by
  simp [leadingDigits]

theorem leadingDigits_eq_nil_iff {v : Word} {k : Nat} : leadingDigits v k = [] ↔ k = 0 := by
  rw [← List.length_eq_zero_iff, leadingDigits_length]

theorem leadingDigits_succ (v : Word) (k : Nat) :
    leadingDigits v (k + 1) = leadingDigits v k ++ [lowerDigit (nibble v k)] := by
  simp [leadingDigits, List.range_succ]

theorem mem_leadingDigits {v : Word} {k : Nat} {c : Char} :
    c ∈ leadingDigits v k ↔ ∃ j < k, lowerDigit (nibble v j) = c := by
  simp [leadingDigits]

/-- Formatting writes the digits of the eight groups (R138). -/
theorem hexDigits_eq_leadingDigits (v : Word) : hexDigits v = leadingDigits v 8 := by
  rw [hexDigits, zeros_append_naturalText, leadingDigits]
  exact List.map_congr_left fun k hk => by rw [nibble_eq_div_mod v (List.mem_range.mp hk)]

/-- The digits of a value are those of its first k groups, and then some that begin with the digit of group k. -/
theorem exists_hexDigits_eq_append (v : Word) {k : Nat} (hk : k ≤ 8) :
    ∃ rest, hexDigits v = leadingDigits v k ++ rest ∧
      ∀ c ∈ rest.head?, k < 8 ∧ c = lowerDigit (nibble v k) := by
  refine ⟨(hexDigits v).drop k, ?_, fun c hc => ?_⟩
  · have first : (hexDigits v).take k = leadingDigits v k := by
      rw [hexDigits_eq_leadingDigits, leadingDigits, ← List.map_take, List.take_range, Nat.min_eq_left hk]; rfl
    rw [← first, List.take_append_drop]
  · rw [List.head?_drop, hexDigits_eq_leadingDigits, leadingDigits, Option.mem_def, List.getElem?_eq_some_iff] at hc
    obtain ⟨inside, rfl⟩ := hc
    exact ⟨by simpa using inside, by simp⟩

/-! ## The parser's number (R143) -/

/-- Reading digits behind a number moves it up by their length and adds their sum. -/
theorem foldl_digits_eq (ds : Text) (n : Nat) :
    ds.foldl (fun n c => n * 16 + digitValue c) n = n * 16 ^ ds.length + hexSum ds := by
  induction ds generalizing n with
  | nil => exact (Nat.mul_one n).symm
  | cons c ds ih =>
    rw [List.foldl_cons, ih, List.length_cons, hexSum, Nat.pow_succ', Nat.add_mul, Nat.mul_assoc, Nat.add_assoc]

theorem hexNumber_eq_hexSum (ds : Text) : hexNumber ds = hexSum ds := by
  rw [hexNumber, foldl_digits_eq, Nat.zero_mul, Nat.zero_add]

/-! ## What the parser answers (R143 to R145) -/

/-- No digit: failure (R144). -/
theorem parseText_of_no_digit {t : Text} (h : digitRun t = []) (o : ParseOverflow) : parseText o t = none :=
  if_pos h

/-- A number that fits: its value (R143). -/
theorem parseText_of_fits {t : Text} (hne : digitRun t ≠ []) (h : hexNumber (digitRun t) < 2 ^ 32)
    (o : ParseOverflow) : parseText o t = some (BitVec.ofNat 32 (hexNumber (digitRun t))) :=
  (if_neg hne).trans (if_pos h)

/-- A number that does not fit: failure, or the number modulo 2^32, as PARSE_OVERFLOW says (R145). -/
theorem parseText_of_overflow {t : Text} (hne : digitRun t ≠ []) (h : 2 ^ 32 ≤ hexNumber (digitRun t)) :
    parseText .fail t = none ∧ parseText .wrap t = some (BitVec.ofNat 32 (hexNumber (digitRun t) % 2 ^ 32)) := by
  have large := Nat.not_lt.mpr h
  have wrapped : BitVec.ofNat 32 (hexNumber (digitRun t) % 2 ^ 32) = BitVec.ofNat 32 (hexNumber (digitRun t)) :=
    BitVec.eq_of_toNat_eq (by simp)
  rw [wrapped]
  exact ⟨(if_neg hne).trans (if_neg large), (if_neg hne).trans (if_neg large)⟩

/-! ## The parser on a text in parts (R141, R142) -/

theorem contains_prefixChars_iff {c : Char} : prefixChars.contains c = true ↔ c = '#' ∨ c = '$' := by
  simp [prefixChars]

/-- PFX is skipped whole, and nothing of a rest that does not go on with it (R141). -/
theorem skipPrefix_append {pfx rest : Text}
    (hp : pfx = ['0', 'x'] ∨ (∀ c ∈ pfx, c = '#' ∨ c = '$') ∧ (pfx ++ rest).take 2 ≠ ['0', 'x'])
    (hr : ∀ c ∈ rest.head?, pfx ≠ ['0', 'x'] → c ≠ '#' ∧ c ≠ '$') : skipPrefix (pfx ++ rest) = rest := by
  by_cases h0 : pfx = ['0', 'x']
  · subst h0
    rfl
  · obtain ⟨marks, notZeroX⟩ := hp.resolve_left h0
    rw [skipPrefix, if_neg notZeroX, List.dropWhile_append_of_pos fun c hc => contains_prefixChars_iff.mpr (marks c hc)]
    cases rest with
    | nil => rfl
    | cons c rest =>
      have noMark : ¬ (c = '#' ∨ c = '$') := not_or.mpr (hr c rfl h0)
      exact List.dropWhile_cons_of_neg (mt contains_prefixChars_iff.mp noMark)

/-- A run from the scan set is taken whole, up to an ending that does not go on with it (R142). -/
theorem takeWhile_scanSet_append {run ending : Text} (hrun : ∀ c ∈ run, c ∈ scanSet)
    (hend : ∀ c ∈ ending.head?, c ∉ scanSet) :
    (run ++ ending).takeWhile (fun c => scanSet.contains c) = run := by
  rw [List.takeWhile_append_of_pos fun c hc => List.contains_iff_mem.mpr (hrun c hc)]
  cases ending with
  | nil => exact List.append_nil run
  | cons c ending =>
    rw [List.takeWhile_cons_of_neg (mt List.contains_iff_mem.mp (hend c rfl)), List.append_nil]

/-- The digits of a text that has, after what is skipped, a run from the scan set and an ending: those of the run. -/
theorem digitRun_of_skipPrefix {t run ending : Text} (ht : skipPrefix t = run ++ ending)
    (hrun : ∀ c ∈ run, c ∈ scanSet) (hend : ∀ c ∈ ending.head?, c ∉ scanSet) :
    digitRun t = run.filter (fun c => c != '_') := by
  rw [digitRun, ht, takeWhile_scanSet_append hrun hend]

/-- What follows PFX does not go on with it: a run begins with none of its characters, and behind an empty run the
ending does not. -/
theorem head?_run_append {pfx run ending : Text} (hrun : ∀ c ∈ run, c ∈ scanSet)
    (hend : ∀ c ∈ ending.head?, run = [] → pfx ≠ ['0', 'x'] → c ≠ '#' ∧ c ≠ '$') :
    ∀ c ∈ (run ++ ending).head?, pfx ≠ ['0', 'x'] → c ≠ '#' ∧ c ≠ '$' := by
  cases run with
  | nil => exact fun c hc => hend c hc rfl
  | cons d run =>
    rintro c ⟨⟩ -
    have scanned : d ∈ scanSet := hrun d (.head _)
    exact ⟨ne_of_mem_of_not_mem scanned (by decide), ne_of_mem_of_not_mem scanned (by decide)⟩

/-- The characters of R140, as one text, are the scan set. -/
theorem toList_scanSet : "0123456789ABCDEF_".toList = scanSet := by decide

/-- Settles O38: the digits of the text are those of the run, and the parser's number is their sum. -/
theorem parseReadsPrefixRunAndEnding : Obligations.ParseReadsPrefixRunAndEnding := by
  refine ⟨by decide, ?_⟩
  intro o pfx run ending hp hrun hend ds
  rw [toList_scanSet] at hrun hend
  rw [List.append_assoc] at hp ⊢
  have skipped : skipPrefix (pfx ++ (run ++ ending)) = run ++ ending :=
    skipPrefix_append hp (head?_run_append hrun fun c hc => (hend c hc).2)
  have digits : digitRun (pfx ++ (run ++ ending)) = ds :=
    digitRun_of_skipPrefix skipped hrun fun c hc => (hend c hc).1
  rw [← digits, ← hexNumber_eq_hexSum]
  exact ⟨fun h => parseText_of_no_digit h o, fun hne h => parseText_of_fits hne h o, parseText_of_overflow⟩

/-! ## The round trip (R148) -/

/-- Parsing skips the text of the HexFlag, and nothing of the digits. -/
theorem skipPrefix_hexString (v : Word) (h : HexFlag) : skipPrefix (hexString v h) = hexDigits v := by
  have noX : (hexDigits v).take 2 ≠ ['0', 'x'] := fun e => by
    have hx : 'x' ∈ (hexDigits v).take 2 := e ▸ .tail _ (.head _)
    exact absurd (mem_lowerDigits_of_mem_hexDigits (List.mem_of_mem_take hx)) (by decide)
  rw [hexString_eq]
  refine skipPrefix_append ?_ fun c hc _ => ?_
  · cases h with
    | none => exact .inr ⟨nofun, noX⟩
    | hash => exact .inr ⟨by simp [hexFlagText], by simp [hexFlagText]⟩
    | zeroX => exact .inl rfl
    | dollar => exact .inr ⟨by simp [hexFlagText], by simp [hexFlagText]⟩
  · have digit : c ∈ lowerDigits := mem_lowerDigits_of_mem_hexDigits (List.mem_of_mem_head? hc)
    exact ⟨ne_of_mem_of_not_mem digit (by decide), ne_of_mem_of_not_mem digit (by decide)⟩

/-- The parser takes the lowercase digits 0 to 9, and no others (R140, R146). -/
theorem lowerDigit_mem_scanSet_iff {d : Nat} (h : d < 16) : lowerDigit d ∈ scanSet ↔ d ≤ 9 := by
  revert d; decide

theorem digitValue_lowerDigit {d : Nat} (h : d ≤ 9) : digitValue (lowerDigit d) = d := by
  revert d; decide

/-- The digits the parser finds in a formatted value: those of the groups before the first one above 9. -/
theorem digitRun_hexString {v : Word} {k : Nat} (hk : k ≤ 8) (small : ∀ j < k, nibble v j ≤ 9)
    (large : k < 8 → 10 ≤ nibble v k) (h : HexFlag) : digitRun (hexString v h) = leadingDigits v k := by
  obtain ⟨rest, split, head⟩ := exists_hexDigits_eq_append v hk
  have scanned : ∀ c ∈ leadingDigits v k, c ∈ scanSet := fun c hc => by
    obtain ⟨j, hj, rfl⟩ := mem_leadingDigits.mp hc
    exact (lowerDigit_mem_scanSet_iff (nibble_lt v j)).mpr (small j hj)
  have stops : ∀ c ∈ rest.head?, c ∉ scanSet := fun c hc => by
    obtain ⟨inside, rfl⟩ := head c hc
    rw [lowerDigit_mem_scanSet_iff (nibble_lt v k)]
    exact Nat.not_le.mpr (large inside)
  have noUnderscore : ∀ c ∈ leadingDigits v k, (c != '_') = true := fun c hc => by
    obtain ⟨j, -, rfl⟩ := mem_leadingDigits.mp hc
    exact bne_iff_ne.mpr (ne_of_mem_of_not_mem (lowerDigit_mem (nibble_lt v j)) (by decide))
  rw [digitRun_of_skipPrefix ((skipPrefix_hexString v h).trans split) scanned stops, List.filter_eq_self.mpr noUnderscore]

/-- When the first k groups of a value are at most 9, their digits stand for the value without the groups after them. -/
theorem hexNumber_leadingDigits {v : Word} {k : Nat} (hk : k ≤ 8) (small : ∀ j < k, nibble v j ≤ 9) :
    hexNumber (leadingDigits v k) = (v >>> (4 * (8 - k))).toNat := by
  rw [BitVec.toNat_ushiftRight, Nat.shiftRight_eq_div_pow, Nat.pow_mul]
  induction k with
  | zero => exact (Nat.div_eq_of_lt v.isLt).symm
  | succ k ih =>
    have before := ih (by omega) fun j hj => small j (by omega)
    have exponent : 8 - k = 7 - k + 1 := by omega
    rw [exponent, Nat.pow_succ, ← Nat.div_div_eq_div_mul] at before
    rw [leadingDigits_succ, hexNumber_concat, before, digitValue_lowerDigit (small k (Nat.lt_succ_self k)),
      nibble_eq_div_mod v hk, Nat.add_sub_add_right 7 1 k]
    exact Nat.div_add_mod' _ 16

/-- What parsing a formatted value answers, said once, with k the number of groups before the first one above 9: failure
when there is none, and the value of those groups otherwise. -/
theorem parseText_hexString {v : Word} {k : Nat} (hk : k ≤ 8) (small : ∀ j < k, nibble v j ≤ 9)
    (large : k < 8 → 10 ≤ nibble v k) (o : ParseOverflow) (h : HexFlag) :
    parseText o (hexString v h) = if k = 0 then none else some (v >>> (4 * (8 - k))) := by
  have digits := digitRun_hexString hk small large h
  split
  next empty => exact parseText_of_no_digit (digits.trans (leadingDigits_eq_nil_iff.mpr empty)) o
  next found =>
    have nonempty : digitRun (hexString v h) ≠ [] := digits ▸ mt leadingDigits_eq_nil_iff.mp found
    have number : hexNumber (digitRun (hexString v h)) = (v >>> (4 * (8 - k))).toNat :=
      digits ▸ hexNumber_leadingDigits hk small
    rw [parseText_of_fits nonempty (number ▸ BitVec.isLt _), number, BitVec.ofNat_toNat, BitVec.setWidth_eq]

/-- A value with a group that is not zero is not itself without its last groups. -/
theorem ushiftRight_ne_self {v : Word} {k : Nat} (hk : k < 8) (hv : nibble v k ≠ 0) : v >>> (4 * (8 - k)) ≠ v := by
  intro e
  have nonzero : v.toNat ≠ 0 := fun h0 => hv (by rw [nibble_eq_div_mod v hk, h0, Nat.zero_div])
  have smaller : v.toNat / 2 ^ (4 * (8 - k)) < v.toNat :=
    Nat.div_lt_self (Nat.pos_of_ne_zero nonzero) (Nat.one_lt_two_pow (by omega))
  have same : v.toNat / 2 ^ (4 * (8 - k)) = v.toNat := by
    rw [← Nat.shiftRight_eq_div_pow, ← BitVec.toNat_ushiftRight, e]
  exact Nat.ne_of_lt smaller same

/-- Settles O43: `parseText_hexString` at the first group above 9; with none, at k = 8, where nothing is left out. -/
theorem textRoundTripHoldsExactlyForDecimalDigits : Obligations.TextRoundTripHoldsExactlyForDecimalDigits := by
  refine fun o v h => ⟨⟨fun back => ?_, fun small => ?_⟩, fun k hk large small =>
    parseText_hexString (Nat.le_of_lt hk) small (fun _ => large) o h⟩
  · intro k hk
    induction k using Nat.strongRecOn with
    | ind k ih =>
      have small : ∀ j < k, nibble v j ≤ 9 := fun j hj => ih j hj (by omega)
      refine Nat.le_of_not_lt fun large => ?_
      rw [parseText_hexString (Nat.le_of_lt hk) small (fun _ => by omega) o h] at back
      split at back
      · cases back
      · exact ushiftRight_ne_self hk (by omega) (Option.some.inj back)
  · exact parseText_hexString (Nat.le_refl 8) small (fun h8 => absurd h8 (Nat.lt_irrefl 8)) o h

/-! ## The commands (R139, R147, R149 to R151) -/

/-- A command that leaves the block as it is: one response more, and nothing else. -/
theorem exec_answers {i : Instr} {s : State} {r : Response}
    (h : operationOf i s.toParams s.req s.toBlock = (s.toBlock, r)) :
    exec i s = .next { s with responses := s.responses ++ [r] } := by
  rw [exec_eq_perform, State.perform_eq, h, State.answer_same]

/-- The digits of R137, as one text, are the lowercase digits. -/
theorem getD_lowerDigits {d : Nat} (h : d < 16) : "0123456789abcdef".toList.getD d ' ' = lowerDigit d := by
  revert d; decide

/-- Settles O37: the text of the flag, and the digit of each group. -/
theorem hexStringIsEightLowercaseDigits : Obligations.HexStringIsEightLowercaseDigits := by
  refine ⟨fun s h => ?_, by decide, by decide, by decide, by decide⟩
  have digits : ((List.range 8).map fun k => "0123456789abcdef".toList.getD (nibble s.req.p1 k) ' ') =
      hexDigits s.req.p1 := by
    rw [hexDigits_eq_leadingDigits, leadingDigits]
    exact List.map_congr_left fun k _ => getD_lowerDigits (nibble_lt s.req.p1 k)
  rw [digits]
  refine exec_answers (congrArg (fun t => (s.toBlock, Response.txt t)) ?_)
  cases h with
  | none | hash | zeroX | dollar => exact hexString_eq s.req.p1 _

/-- Settles O39: `opParse_eq` on either outcome of the parser. -/
theorem parseCommand : Obligations.ParseCommand := by
  refine ⟨fun s v h => exec_answers ?_, fun s h => exec_answers ?_, by decide⟩
  · rw [operationOf, opParse_eq, h]
    rfl
  · rw [operationOf, opParse_eq, h]
    rfl

/-- Settles O40: the operation is `writeReg` of the value or zero, by `opSettxt_eq`, and one response. -/
theorem setRegisterFromText : Obligations.SetRegisterFromText := by
  refine ⟨fun s r => ?_, fun f i => Fields.toWord_ofReg .SETTXT ⟨f, i⟩⟩
  have does := exec_eq_perform (.settxt r) s
  rw [State.perform_eq, operationOf, opSettxt_eq] at does
  refine ⟨_, _, does, Block.readReg_writeReg_same .., rfl, fun _ => Block.readReg_writeReg_other _ _, ?_⟩
  exact congrArg (fun b => s.answer (b, Response.bool _)) (Block.writeReg_eq ..)

/-- The index of a register, in decimal, is one digit (R150). -/
theorem toString_index (i : Fin 8) : (toString i.val).toList = [lowerDigit i.val] := by
  revert i; decide

/-- Settles O41: a name is a letter and the digit of the index, and `readReg` reads the register back from it. -/
theorem registerNames : Obligations.RegisterNames := by
  refine ⟨fun s i => ?_, fun r r' same => ?_, fun f i => Fields.toWord_ofReg .NAME ⟨f, i⟩⟩
  · rw [toString_index]
    exact ⟨exec_answers rfl, exec_answers rfl⟩
  · have back := congrArg readReg same
    rwa [readReg_regName, readReg_regName, Option.some.injEq] at back

/-- Settles O42: the text of `#` is one character, and the digits are eight. -/
theorem registerValueAsText : Obligations.RegisterValueAsText := by
  refine ⟨fun s r => ⟨exec_answers rfl, ?_⟩, fun f i => Fields.toWord_ofReg .VALSTR ⟨f, i⟩⟩
  rw [hexString_eq, List.length_append, hexDigits_length]
  rfl

end Sys2Proof.Machine
end

section
/-! SUPPORT. Errors (R160 to R166): every request gets one response, which request gets which error, and what an error
leaves as it was. -/

namespace Sys2Proof.Machine

/-! ## The response of a step (R160) -/

/-- Settles O8: a step performs the block's serving of the request, and answering adds one response. -/
theorem everyRequestGetsOneResponse : Obligations.EveryRequestGetsOneResponse :=
  fun _ _ _ hs => ⟨_, _, step_eq_perform_serveRequest hs, rfl, rfl, rfl⟩

/-- The response a step adds is the one the block's serving of the request gives. -/
theorem step_response {s t : State} {q : Request} {rest : List Request} {r : Response} (hs : s.script = q :: rest)
    (h : step s = .next t) (hr : t.responses = s.responses ++ [r]) :
    t = (s.accept q rest).answer (serveRequest s.toParams q s.toBlock) ∧
      r = (serveRequest s.toParams q s.toBlock).2 := by
  rw [step_eq_perform_serveRequest hs, State.perform_eq] at h
  obtain rfl := Host.Outcome.next.inj h
  rw [State.answer_responses, State.accept_responses, List.append_cancel_left_eq, List.singleton_inj] at hr
  exact ⟨rfl, hr.symm⟩

/-! ## Which request gets which error (R161 to R164) -/

/-- PARSE of a text with no value raises ParseFailure (R147, R163). -/
theorem operationOf_parse_failure {p : Params} {q : Request} (h : parseText p.parseOverflow q.text = none) (b : Block) :
    operationOf .parse p q b = b.raise .parseFailure := by
  rw [operationOf, opParse_eq, h]
  rfl

/-- The commands that write a register answer OK (R121, R149). -/
theorem operationOf_registerWrite_st {i : Instr} {r : Reg} (h : i = .wrreg r ∨ i = .settxt r) (p : Params)
    (q : Request) (b : Block) : (operationOf i p q b).2.st = .ok := by
  obtain rfl | rfl := h
  · rfl
  · rw [operationOf, opSettxt_eq]
    rfl

/-- A memory operation answers OK or AccessError (R107). -/
theorem operationOf_memory_st {i : Instr} (hi : i ∈ loadOps ++ storeOps) (p : Params) (q : Request) (b : Block) :
    (operationOf i p q b).2.st = .ok ∨ (operationOf i p q b).2.st = .accessError := by
  obtain ⟨f, touches, eq⟩ := operationOf_touchesOnlyMemory hi p.memSize q
  obtain ⟨m, r, status, does⟩ := touches b.mem
  rw [eq p rfl, does b rfl]
  exact status

/-- The status a command can answer: OK, AccessError from a memory operation, or ParseFailure from a PARSE of a text with
no value (R161, R163). -/
theorem operationOf_st (i : Instr) (p : Params) (q : Request) (b : Block) :
    (operationOf i p q b).2.st = .ok ∨
    ((operationOf i p q b).2.st = .accessError ∧ i ∈ loadOps ++ storeOps) ∨
    ((operationOf i p q b).2.st = .parseFailure ∧ i = .parse ∧ parseText p.parseOverflow q.text = none) := by
  cases i with
  | ldb | ldh | ldw | ldbx | stb | sth | stw =>
    exact (operationOf_memory_st (by decide) p q b).imp_right fun access => .inl ⟨access, by decide⟩
  | parse =>
    cases h : parseText p.parseOverflow q.text with
    | none =>
      rw [operationOf_parse_failure h]
      exact .inr (.inr ⟨rfl, rfl, rfl⟩)
    | some v =>
      rw [operationOf, opParse_eq, h]
      exact .inl rfl
  | settxt r => exact .inl (operationOf_registerWrite_st (.inr rfl) p q b)
  | _ => exact .inl rfl

/-- A request whose word decodes to no command is answered IllegalCommand (R164). -/
theorem serveRequest_of_illegal {q : Request} (h : ∀ i, decode q.cmd ≠ .ok i) (p : Params) (b : Block) :
    serveRequest p q b = b.raise .illegalCommand := by
  cases hd : decode q.cmd with
  | ok i => exact absurd hd (h i)
  | error e => exact serveRequest_of_decode_error hd p b

/-- What a request must be for its response to have a status (R161, R163, R164). AlignmentError has no cause (R162). -/
def Request.Causes (p : Params) (q : Request) : Status → Prop
  | .ok => True
  | .accessError => ∃ i ∈ loadOps ++ storeOps, decode q.cmd = .ok i
  | .alignmentError => False
  | .parseFailure => decode q.cmd = .ok .parse ∧ parseText p.parseOverflow q.text = none
  | .illegalCommand => ∀ i, decode q.cmd ≠ .ok i

/-- The status of every response has its cause in the request. -/
theorem causes_of_serveRequest_st {p : Params} {q : Request} {b : Block} {st : Status}
    (h : (serveRequest p q b).2.st = st) : q.Causes p st := by
  subst h
  cases hd : decode q.cmd with
  | ok i =>
    rw [serveRequest_of_decode_ok hd]
    obtain st | ⟨st, hi⟩ | ⟨st, rfl, noValue⟩ := operationOf_st i p q b <;> rw [st]
    · exact trivial
    · exact ⟨i, hi, hd⟩
    · exact ⟨hd, noValue⟩
  | error e =>
    rw [serveRequest_of_decode_error hd]
    exact fun i => hd ▸ nofun

theorem serveRequest_st_eq_parseFailure_iff {p : Params} {q : Request} {b : Block} :
    (serveRequest p q b).2.st = .parseFailure ↔
      decode q.cmd = .ok .parse ∧ parseText p.parseOverflow q.text = none := by
  refine ⟨causes_of_serveRequest_st, fun ⟨hd, noValue⟩ => ?_⟩
  rw [serveRequest_of_decode_ok hd, operationOf_parse_failure noValue]
  rfl

theorem serveRequest_st_eq_illegalCommand_iff {p : Params} {q : Request} {b : Block} :
    (serveRequest p q b).2.st = .illegalCommand ↔ ∀ i, decode q.cmd ≠ .ok i := by
  refine ⟨causes_of_serveRequest_st, fun illegal => ?_⟩
  rw [serveRequest_of_illegal illegal]
  rfl

/-- Settles O46: the response is the one `serveRequest` gives, each of whose errors has one cause; it is well shaped, so
FA is 0 without AccessError. -/
theorem errorsAndTheirOnlyCauses : Obligations.ErrorsAndTheirOnlyCauses := by
  refine ⟨fun s t q rest r hs h hr => ?_, rfl, rfl, rfl, rfl, rfl⟩
  obtain ⟨-, rfl⟩ := step_response hs h hr
  obtain ⟨notAlignment, -, noAddress, -⟩ := serveRequest_wellShaped s.toParams q s.toBlock
  exact ⟨notAlignment, serveRequest_st_eq_parseFailure_iff, serveRequest_st_eq_illegalCommand_iff,
    causes_of_serveRequest_st, noAddress⟩

/-! ## What an error leaves as it was (R166) -/

/-- A command that is not a store and answers an error leaves the block as it is: those that write a register or the
flags answer OK. -/
theorem operationOf_fst_of_error {i : Instr} {p : Params} {q : Request} {b : Block} (hi : i ∉ storeOps)
    (error : (operationOf i p q b).2.st ≠ .ok) : (operationOf i p q b).1 = b := by
  obtain e | ⟨hs, -⟩ | ⟨r, v, hw, -⟩ | ⟨rfl, -⟩ := operationOf_writes i p q
  · exact e b
  · exact absurd hs hi
  · exact absurd (operationOf_registerWrite_st hw p q b) error
  · exact absurd rfl error

/-- A request answered with an error leaves the block as it is, or is a store, which writes bytes from its address up and
nothing else (R47, R166). -/
theorem serveRequest_fst_of_error {p : Params} {q : Request} {b : Block} (error : (serveRequest p q b).2.st ≠ .ok) :
    (serveRequest p q b).1 = b ∨
    ∃ i ∈ storeOps, decode q.cmd = .ok i ∧
      ∃ bs, (serveRequest p q b).1 = { b with mem := (memWrite p.memSize.val q.address bs b.mem).1 } := by
  cases hd : decode q.cmd with
  | ok i =>
    rw [serveRequest_of_decode_ok hd] at error ⊢
    by_cases hi : i ∈ storeOps
    · obtain ⟨bs, -, stores⟩ := operationOf_storeOp hi p q
      rw [stores]
      exact .inr ⟨i, hi, rfl, bs, store_fst ..⟩
    · exact .inl (operationOf_fst_of_error hi error)
  | error e =>
    rw [serveRequest_of_decode_error hd]
    exact .inl rfl

/-- Settles O47: the block is as it was, or a store's bytes are written, and MemWrite writes none below its address or
outside the memory. -/
theorem errorsChangeOnlyAStoresBytes : Obligations.ErrorsChangeOnlyAStoresBytes := by
  intro s t q rest r hinv hs h hr error
  obtain ⟨rfl, rfl⟩ := step_response hs h hr
  have canonical : Memory.wf s.mem = true := (State.inv_iff.mp hinv).1.1
  rw [State.answer_toBlock]
  obtain same | ⟨i, hi, hd, bs, stored⟩ := serveRequest_fst_of_error error
  · rw [same]
    refine ⟨?_, fun _ => rfl, fun _ _ => rfl⟩
    rw [State.answer, same]
    rfl
  · rw [stored]
    refine ⟨?_, fun noStore => absurd hd (noStore i hi), fun x outside => ?_⟩
    · rw [State.answer, stored]
      rfl
    · exact read_memWrite_other canonical fun written => outside ⟨written.1, written.2.2⟩

end Sys2Proof.Machine
end

section
/-! SUPPORT. Construction meets the invariant, and a run serves the host's requests in their order (R180, R181, R186,
R189). -/

namespace Sys2Proof.Machine

/-! ## Reset and construction (R180) -/

/-- The constructed memory lists no byte, and no response has been given. -/
theorem State.construct_inv (n : MemSize) (init : RegFile → Fin 8 → Word) (o : ParseOverflow) :
    (State.construct n init o).Inv :=
  ⟨rfl, nofun, nofun⟩

/-- Settles O12: reset is one of the constructions. -/
theorem constructionMeetsTheInvariant : Obligations.ConstructionMeetsTheInvariant :=
  ⟨State.construct_inv, State.construct_inv ..⟩

/-- Settles O55: it is the definition of the reset state. -/
theorem resetIsAConstructionWithOpenParameters : Obligations.ResetIsAConstructionWithOpenParameters :=
  ⟨rfl, rfl, rfl⟩

/-! ## One step -/

/-- Settles O7: without a request, a step takes the branch of the empty script. -/
theorem stepWithoutARequestChangesNothing : Obligations.StepWithoutARequestChangesNothing := by
  intro s h
  rw [step, h]

/-! ## The block serving a script -/

theorem serveAll_cons (p : Params) (q : Request) (qs : List Request) (b : Block) :
    serveAll p (q :: qs) b =
      ((serveAll p qs (serveRequest p q b).1).1,
        (serveRequest p q b).2 :: (serveAll p qs (serveRequest p q b).1).2) := rfl

/-- The block gives one response to each request (R189). -/
theorem serveAll_responses_length (p : Params) (qs : List Request) (b : Block) :
    (serveAll p qs b).2.length = qs.length := by
  induction qs generalizing b with
  | nil => rfl
  | cons q qs ih => rw [serveAll_cons, List.length_cons, List.length_cons, ih]

/-! ## Runs -/

/-- After a step that goes on, a run goes on from its next state. -/
theorem run_succ_of_step {M : Host.Core} {s u : M.State} (h : M.step s = .next u) (k : Nat) :
    M.run (k + 1) s = M.run k u := by
  rw [Host.Core.run, h]

/-- What serving the requests of a state leaves behind: no request, the block after the last one, one response more for
each, and the parameters as they were (R189). -/
def State.Leaves (s t : State) : Prop :=
  t.script = [] ∧ t.toParams = s.toParams ∧ t.toBlock = (serveAll s.toParams s.script s.toBlock).1 ∧
    t.responses = s.responses ++ (serveAll s.toParams s.script s.toBlock).2

/-- A state without a request is what serving its requests leaves. -/
theorem State.leaves_self {s : State} (h : s.script = []) : s.Leaves s := by
  simp [State.Leaves, h, serveAll]

/-- Serving the first request and then the others is serving them all. -/
theorem State.Leaves.cons {s t : State} {q : Request} {rest : List Request} (hs : s.script = q :: rest)
    (h : ((s.accept q rest).answer (serveRequest s.toParams q s.toBlock)).Leaves t) : s.Leaves t := by
  obtain ⟨noRequest, params, block, responses⟩ := h
  rw [State.Leaves, hs, serveAll_cons]
  exact ⟨noRequest, params, block, responses.trans (List.append_assoc ..)⟩

/-- As many steps as the host has requests serve them all (R186), by induction on the script. -/
theorem run_script_leaves (s : State) :
    ∃ t : State, Host.Core.run Sys2Proof.core s.script.length s = .next t ∧ s.Leaves t := by
  induction hs : s.script generalizing s with
  | nil => exact ⟨s, rfl, State.leaves_self hs⟩
  | cons q rest ih =>
    obtain ⟨t, hrun, leaves⟩ := ih ((s.accept q rest).answer (serveRequest s.toParams q s.toBlock)) rfl
    have serves := run_succ_of_step (M := Sys2Proof.core) (step_eq_perform_serveRequest hs) rest.length
    exact ⟨t, serves.trans hrun, leaves.cons hs⟩

/-- Settles O10: the run leaves no request and one response for each, and every step keeps the invariant. -/
theorem runServesTheWholeScript : Obligations.RunServesTheWholeScript := by
  intro s hinv
  obtain ⟨t, hrun, noRequest, -, -, responses⟩ := run_script_leaves s
  refine ⟨t, hrun, noRequest, ?_,
    run_of_step_keeps (M := Sys2Proof.core) (P := State.Inv) (everyStepKeepsTheInvariant _ _) hinv hrun⟩
  rw [responses, List.length_append, serveAll_responses_length]

/-- Settles O54: what the run leaves is the block's serving of the requests; the earlier responses are a prefix. -/
theorem runLeavesTheBlocksStateAndResponses : Obligations.RunLeavesTheBlocksStateAndResponses := by
  intro s
  obtain ⟨t, hrun, -, params, block, responses⟩ := run_script_leaves s
  refine ⟨t, hrun, ?_, ?_, params⟩
  · rw [block, responses, List.drop_left]
  · rw [responses, List.take_left]

end Sys2Proof.Machine
end
